-- ==== Sys2Proof/Word.lean ====
section
/-! DEFINITION. The word types of the machine: bytes, 64-bit words, 128-bit instruction words. -/

namespace Sys2Proof

/-- A byte of the memory region (R40). -/
abbrev Byte := BitVec 8

/-- A 64-bit unsigned value: a register, the program counter, an immediate, an address (R9, R13). -/
abbrev Word := BitVec 64

/-- A 128-bit instruction word (R11 `ILEN`, R62). -/
abbrev InstrWord := BitVec 128

end Sys2Proof
end

