-- ==== Sys2Proof/Config.lean ====
section
/-! DEFINITION. The parameters of the machine: those the spec fixes (R9, R11), and the one configuration that
`State.reset` is built with (R10 leaves it open). The spec leaves no value undefined, so there is no free value. -/

namespace Sys2Proof

/-- `NREGS`: general registers of one unit (R9). -/
abbrev Config.numRegs : Nat := 16

/-- The number of register indices the 8-bit field of an instruction word can carry (R11 `RIDXLEN`, R61). -/
abbrev Config.numIndices : Nat := 256

/-- `NUM_UNITS` of the host that `State.reset` constructs. DESIGN CHOICE, unsafe (log 1): R10 leaves it open. The value
is that of the spec's programs (`95_test_vectors.md`, Part 3). `State.construct` takes every other value. -/
def Config.numUnits : Nat := 1

/-- `MEM_SIZE` of the host that `State.reset` constructs. DESIGN CHOICE, unsafe (log 1): R10 leaves it open. The value
is that of the spec's program P6 (`95_test_vectors.md`). -/
def Config.memSize : Nat := 1024

end Sys2Proof
end

