-- ==== Sys2Proof/Syntax.lean ====
section
/-! DEFINITION. The instruction set: one closed inductive of five variants (R3, R60). -/

namespace Sys2Proof

/-- A decoded instruction, with the operands the spec lists (R60). A register index is a natural number: the spec gives
meaning to 0 to 15, an error to 16 to 255, and no encoding to 256 and more (R22, R61; `Instr.wellFormed`). -/
inductive Instr where
  /-- `LoadImmediate{reg, value}` (R100). -/
  | loadImmediate (reg : Nat) (value : Word)
  /-- `Move{dest, src}` (R101). -/
  | move (dest src : Nat)
  /-- `Add{dest, src}` (R110). -/
  | add (dest src : Nat)
  /-- `Jump{address}` (R120). -/
  | jump (address : Word)
  /-- `Halt` (R121). -/
  | halt
deriving DecidableEq, Repr

end Sys2Proof
end

