-- ==== Sys2Proof/Machine/State.lean ====
section
/-! DEFINITION. The machine's state as plain data: the record `HostState` of R38, and beside it the model's own fields
(what the host does next, and what it was answered). The reset state is R39's. -/

namespace Sys2Proof.Machine

/-- `UnitState` of R38: one execution unit. It has no other state (R34 to R37). -/
structure UnitState where
  /-- `x[0]` to `x[15]` (R20). -/
  regs : Vector Word Config.numRegs
  /-- The program counter (R26). -/
  pc : Word
  /-- The running flag (R31). -/
  running : Bool
deriving DecidableEq, Repr

/-- The memory region of R40. `cells` is in canonical form (`Memory.wf`): addresses strictly rising, all below `size`,
and no entry that holds 0, which is what an unlisted address reads as (R39). -/
structure Memory where
  /-- `MEM_SIZE`, fixed at construction (R10, R40). -/
  size : Nat
  /-- The bytes that are not 0. -/
  cells : List Host.Cell
deriving DecidableEq, Repr

/-- The host's lifecycle state (R142). -/
inductive Lifecycle where
  | created
  | running
  | stopped
  | error
deriving DecidableEq, Repr

/-- The report of an `InvalidRegister` error (R133). -/
structure Report where
  badA : Bool
  idxA : BitVec 8
  badB : Bool
  idxB : BitVec 8
deriving DecidableEq, Repr

/-- The complete list of error kinds (R138). An error is a RESULT returned to the caller of the failing operation
(R130, R140): it stops no machine, so it is no `Fault` (log 3). -/
inductive ErrorKind where
  /-- A register operand is 16 or more; raised by LoadImmediate, Move, Add (R131). -/
  | invalidRegister (report : Report)
  /-- The word presented for execution decodes to `Illegal` (R132). -/
  | illegalInstruction (word : InstrWord)
  /-- A memory address of `MEM_SIZE` or more; raised by memory read and write (R135). -/
  | outOfBounds (address : Word)
  /-- `loadAndRun` on a host with no unit (R136). -/
  | noUnitsAvailable
  /-- `stop` of a host that is not Running (R137). -/
  | illegalTransition
deriving DecidableEq, Repr

/-- What is presented to a unit for execution (R80, R89): in hardware a 128-bit word; at the level of the document an
instruction already decoded. -/
inductive Presented where
  | word (w : InstrWord)
  | decoded (i : Instr)
deriving DecidableEq, Repr

/-- The inputs of a unit's ports in one clock cycle (R81). `clk` is the step itself. -/
structure UnitIn where
  rst : Bool := false
  execValid : Bool := false
  execInstr : InstrWord := 0#128
  loadValid : Bool := false
  loadAddr : Word := 0#64
  obsIdx : BitVec 4 := 0#4
deriving DecidableEq, Repr

/-- The error report of a unit's ports (R84). -/
structure ErrorOut where
  status : BitVec 2
  errBadA : Bool
  errBadB : Bool
  errIdxA : BitVec 8
  errIdxB : BitVec 8
deriving DecidableEq, Repr

/-- The outputs of a unit's ports in one clock cycle (R81): the error report (R84) and the observation (R85). -/
structure UnitOut where
  err : ErrorOut
  pc : Word
  running : Bool
  obsData : Word
deriving DecidableEq, Repr

/-- The inputs of the memory port in one clock cycle (R56). -/
structure MemIn where
  memOp : BitVec 2 := 0#2
  memAddr : Word := 0#64
  memWdata : Byte := 0#8
deriving DecidableEq, Repr

/-- The outputs of the memory port in one clock cycle (R56). -/
structure MemOut where
  memRdata : Byte
  memOob : Bool
deriving DecidableEq, Repr

/-- One cycle of the driver on a unit's ports (R96): an execute cycle of the word, or an idle cycle, which "may come
between any two". `obs_idx` is free in every cycle (R85). -/
structure PortSlot where
  word : Option InstrWord
  obsIdx : BitVec 4 := 0#4
deriving DecidableEq, Repr

/-- What is left of the `loadAndRun` in progress: the instructions it has still to feed (R90), or, where the host performs
it on the unit's ports, the cycles it has still to issue (R96). -/
inductive Feed where
  | direct (instructions : List Presented)
  | ports (slots : List PortSlot)
deriving DecidableEq, Repr

/-- One operation of the host, the one agent that acts on the machine (R51). -/
inductive HostOp where
  /-- `loadAndRun(unit_index, instructions, start_address)` (R90). -/
  | loadAndRun (unit : Nat) (instructions : List Presented) (start : Word)
  /-- The same, performed on the unit's ports (R96): a load cycle, in which the host observes `obsIdx`, and then the
  cycles `slots`, up to the first error or Halt (log 19). -/
  | drivePorts (unit : Nat) (slots : List PortSlot) (start : Word) (obsIdx : BitVec 4 := 0#4)
  /-- `execute` of one instruction, presented directly and not by the driver (R80, R145, R149). -/
  | execute (unit : Nat) (instruction : Presented)
  /-- `read(address)` of the memory region (R43). -/
  | read (address : Word)
  /-- `write(address, byte)` of the memory region (R44). -/
  | write (address : Word) (byte : Byte)
  /-- `start` of the host's lifecycle (R142). -/
  | start
  /-- `stop` of the host's lifecycle (R142). -/
  | stop
  /-- One clock cycle on a unit's ports (R82). -/
  | unitCycle (unit : Nat) (ins : UnitIn)
  /-- One clock cycle on the memory port (R56). -/
  | memCycle (ins : MemIn)
deriving DecidableEq, Repr

/-- What an operation returned to its caller. -/
inductive Reply where
  /-- Nothing was presented: no operation has returned (R82's idle row). -/
  | idle
  /-- Success (R80), without a value. -/
  | ok
  /-- The byte a `read` returned (R43). -/
  | byte (b : Byte)
  /-- The error the operation raised (R130). -/
  | error (kind : ErrorKind)
  /-- The outputs of a unit's ports in the cycle (R81). -/
  | unitPorts (out : UnitOut)
  /-- The outputs of the memory port in the cycle (R56). -/
  | memPort (out : MemOut)
deriving DecidableEq, Repr

/-- `HostState` of R38 (`units`, `mem`, `lifecycle`), and the model's own fields. -/
structure State where
  /-- The execution units, numbered by position (R38). There are `NUM_UNITS` of them (R10, R146). -/
  units : List UnitState
  /-- The memory region (R40). -/
  mem : Memory
  /-- The host's lifecycle (R142). -/
  lifecycle : Lifecycle
  /-- The MODEL's own: the operations the host will perform, oldest first (log 2). -/
  agenda : List HostOp
  /-- The MODEL's own: the unit whose instruction port is driven (log 4). -/
  target : Nat
  /-- The MODEL's own: what is left of the `loadAndRun` in progress on `target` (R90, R96; logs 5, 19). -/
  feed : Option Feed
  /-- The MODEL's own: what the last operation returned (log 3). -/
  reply : Reply
deriving DecidableEq, Repr

/-- The ways the machine stops with a fault: none. Every failing operation returns its error to its caller and the
machine goes on (R130, R140, R141), and every error kind is recoverable (R138). -/
inductive Fault where
deriving DecidableEq, Repr

/-- Where the spec gives no meaning and says that a model refuses. Each is safe: the machine may do anything there, and
no claim about it can be proved. -/
inductive Refusal where
  /-- `exec` of an instruction that has no meaning yet. Safe. No arm answers it. -/
  | notModelled (mnemonic : String)
  /-- `exec` of an instruction with a register index of 256 or more, which has no encoding (R61, C6, ID11). Safe. -/
  | indexNotEncodable
  /-- `loadAndRun` on a unit that does not exist, on a host that has units (R93, ID7); and, DEDUCED from R93,
  any other request to a unit that does not exist (log 8). Safe. -/
  | noSuchUnit
  /-- A cycle with `load_valid` and `exec_valid` both 1 and `rst` 0 (R87, ID9). Safe. -/
  | loadWithExecute
  /-- A cycle of the memory port with `mem_op = 11` (R56, ID10). Safe. -/
  | memOpNotAllowed
  /-- `start` of a host that is not Created (R142, ID8). Safe. -/
  | startNotCreated
deriving DecidableEq, Repr

/-- The outcome of an operation on the machine. -/
abbrev Outcome := Host.Outcome State Fault Refusal

/-- A fresh unit: R39's three rows, which are also what a unit's own reset restores (R160). -/
def UnitState.fresh : UnitState := { regs := Vector.replicate Config.numRegs 0#64, pc := 0#64, running := false }

/-- Construction of a host with `numUnits` units and `memSize` bytes of memory (R39, R160). Nothing is presented to a
unit after it (R161), so the model's own fields are empty (logs 2, 3, 4, 5). -/
def State.construct (numUnits memSize : Nat) : State where
  units := List.replicate numUnits UnitState.fresh
  mem := { size := memSize, cells := [] }
  lifecycle := .created
  agenda := []
  target := 0
  feed := none
  reply := .idle

/-- The machine right after reset: the document's reset is construction (R160). The two parameters are one choice among
those R10 leaves open (log 1). -/
def State.reset : State := State.construct Config.numUnits Config.memSize

end Sys2Proof.Machine
end

