-- ==== Sys2Proof/WellFormed.lean ====
section
/-! DEFINITION. Which instructions have an encoding: those whose register indices fit the 8-bit fields (R61). -/

namespace Sys2Proof

/-- The index can be written in an 8-bit index field (R61). It need not be VALID: 16 to 255 are encodable and raise
`InvalidRegister` when executed (R22). -/
def encodableIndex (i : Nat) : Bool := decide (i < Config.numIndices)

/-- Every register index of the instruction is encodable (R61, R67). A value and an address are 64-bit words and need
no check (R63). -/
def Instr.wellFormed : Instr → Bool
  | .loadImmediate reg _ => encodableIndex reg
  | .move dest src => encodableIndex dest && encodableIndex src
  | .add dest src => encodableIndex dest && encodableIndex src
  | .jump _ => true
  | .halt => true

end Sys2Proof
end

