-- ==== Sys2Proof/Machine/Ops.lean ====
section
/-! DEFINITION. The named operations over a unit's registers and program counter, over the memory region, and over the
machine: committing a result, raising an error. -/

namespace Sys2Proof.Machine

/-! ### One unit's registers, program counter and adders -/

/-- `x[i]` (R14, R20). No register is hardwired (R21). -/
def UnitState.reg (u : UnitState) (i : Fin Config.numRegs) : Word := u.regs[i]

/-- `x[i] <- v` (R14). A register holds a value, never a reference (R24). -/
def UnitState.setReg (u : UnitState) (i : Fin Config.numRegs) (v : Word) : UnitState :=
  { u with regs := u.regs.set i v }

/-- `pc <- v` (R14). Every 64-bit value is a legal `pc` (R28). -/
def UnitState.setPc (u : UnitState) (v : Word) : UnitState := { u with pc := v }

/-- The ALU: the exact sum, reduced modulo 2^64; the carry out of bit 63 is discarded (R13, R110, R113). -/
def alu (a b : Word) : Word := BitVec.ofNat 64 (a.toNat + b.toNat)

/-- The second incrementer: `pc <- pc +_64 1`, its carry discarded (R29, R113). -/
def UnitState.advancePc (u : UnitState) : UnitState := u.setPc (alu u.pc 1#64)

/-! ### The memory region -/

/-- The byte an address holds in a list of cells: an address that is not listed reads as 0, the byte the spec gives
every address at construction (R39, R40). -/
def cellByte : List Host.Cell → Nat → Byte
  | [], _ => 0#8
  | (k, v) :: rest, a => if k = a then v else cellByte rest a

/-- The cells with byte `b` at address `a`, in canonical form: the byte 0 is not listed. -/
def putCell : List Host.Cell → Nat → Byte → List Host.Cell
  | [], a, b => if b = 0#8 then [] else [(a, b)]
  | (k, v) :: rest, a, b =>
    if a < k then (if b = 0#8 then (k, v) :: rest else (a, b) :: (k, v) :: rest)
    else if a = k then (if b = 0#8 then rest else (a, b) :: rest)
    else (k, v) :: putCell rest a b

/-- Every listed address is at least `lo` and below `size`, the addresses rise strictly, and no listed byte is 0. -/
def cellsWf (size : Nat) : Nat → List Host.Cell → Bool
  | _, [] => true
  | lo, (k, v) :: rest => decide (lo ≤ k) && decide (k < size) && decide (v ≠ 0#8) && cellsWf size (k + 1) rest

/-- The canonical form of the memory region. -/
def Memory.wf (m : Memory) : Bool := cellsWf m.size 0 m.cells

/-- The address is one of the region's: 0 to `MEM_SIZE - 1` (R42). -/
def Memory.inBounds (m : Memory) (address : Word) : Bool := decide (address.toNat < m.size)

/-- The byte `mem[address]` (R14 `MemRead(addr, 1)`). -/
def Memory.byteAt (m : Memory) (address : Word) : Byte := cellByte m.cells address.toNat

/-- `mem[address] <- byte` (R14 `MemWrite(addr, 1, v)`). -/
def Memory.setByte (m : Memory) (address : Word) (byte : Byte) : Memory :=
  { m with cells := putCell m.cells address.toNat byte }

/-- R43: `read(address)`. -/
def Memory.read (m : Memory) (address : Word) : Except ErrorKind Byte :=
  if m.inBounds address then .ok (m.byteAt address) else .error (.outOfBounds address)

/-- R44: `write(address, byte)`. -/
def Memory.write (m : Memory) (address : Word) (byte : Byte) : Except ErrorKind Memory :=
  if m.inBounds address then .ok (m.setByte address byte) else .error (.outOfBounds address)

/-! ### The machine -/

/-- The operation ends with a reply. -/
def State.withReply (s : State) (r : Reply) : State := { s with reply := r }

/-- The host's instruction port is that of unit `k`. -/
def State.withTarget (s : State) (k : Nat) : State := { s with target := k }

/-- The state that holds `u` as unit `k`; every other unit as it was (R25). -/
def State.setUnit (s : State) (k : Nat) (u : UnitState) : State := { s with units := s.units.set k u }

/-- `raise E(info)` (R14, R130): TAKING AN EXCEPTION. There is no trap entry: no state is saved, no mode changes, no
handler runs and control goes nowhere; the error is the result returned to the caller (R140). There is no return from
one either, because no handler runs (R141): the machine simply takes the host's next operation. -/
def State.raise (s : State) (e : ErrorKind) : Outcome := .next (s.withReply (.error e))

/-- `ok` of an operation on unit `k` whose new state is `u` (R86, R89). -/
def State.commitUnit (s : State) (k : Nat) (u : UnitState) : Outcome := .next ((s.setUnit k u).withReply .ok)

/-- R89's result on unit `k`: the new unit state is committed, or the error is raised with the state left as it was
(R86). A unit that does not exist has no port (log 8). -/
def State.onUnit (s : State) (k : Nat) (f : UnitState → Except ErrorKind UnitState) : Outcome :=
  match s.units[k]? with
  | none => .refused .noSuchUnit
  | some u =>
    match f u with
    | .ok u' => s.commitUnit k u'
    | .error e => s.raise e

/-- An instruction's meaning `f` on the unit whose port is driven. `indices` are the instruction's register indices: one
of 256 or more has no encoding and is refused (R61, C6, ID11). -/
def State.executeOnTarget (s : State) (indices : List Nat) (f : UnitState → Except ErrorKind UnitState) : Outcome :=
  if indices.all encodableIndex then s.onUnit s.target f else .refused .indexNotEncodable

/-- An operation's next state, changed by `f`; a fault and a refusal stay. -/
def mapNext (f : State → State) : Outcome → Outcome
  | .next s => .next (f s)
  | .fault r => .fault r
  | .refused r => .refused r

end Sys2Proof.Machine
end

