-- ==== Sys2Proof/Machine/Operands.lean ====
section
/-! DEFINITION. The operand forms: one register index, or two checked together (R22, R133). An immediate is taken as it
is, so it needs no operand form (R63). -/

namespace Sys2Proof.Machine

/-- The index is outside 0 to 15 (R22). -/
def badIndex (i : Nat) : Bool := decide (Config.numRegs ≤ i)

/-- R133's report for LoadImmediate: field `a` only. -/
def reportOne (reg : Nat) : Report :=
  { badA := badIndex reg, idxA := BitVec.ofNat 8 reg, badB := false, idxB := 0#8 }

/-- R133's report for Move and Add: both fields, whichever is invalid. -/
def reportTwo (dest src : Nat) : Report :=
  { badA := badIndex dest, idxA := BitVec.ofNat 8 dest, badB := badIndex src, idxB := BitVec.ofNat 8 src }

/-- One register operand: validated before anything is written (R22, R86, R131). -/
def withRegister (reg : Nat) (f : Fin Config.numRegs → UnitState) : Except ErrorKind UnitState :=
  if h : reg < Config.numRegs then .ok (f ⟨reg, h⟩) else .error (.invalidRegister (reportOne reg))

/-- Two register operands, "checked together" (R101, R133). -/
def withRegisters (dest src : Nat) (f : Fin Config.numRegs → Fin Config.numRegs → UnitState) :
    Except ErrorKind UnitState :=
  if h : dest < Config.numRegs ∧ src < Config.numRegs then .ok (f ⟨dest, h.1⟩ ⟨src, h.2⟩)
  else .error (.invalidRegister (reportTwo dest src))

end Sys2Proof.Machine
end

