-- ==== Sys2Proof/Machine/Arithmetic.lean ====
section
/-! DEFINITION. The arithmetic instruction: Add. -/

namespace Sys2Proof.Machine

/-- R110 on one unit: `x[dest] <- x[dest] +_64 x[src]`, `pc <- pc +_64 1`. Both operands are read before the sum is
written (R166). -/
def add (dest src : Nat) (u : UnitState) : Except ErrorKind UnitState :=
  withRegisters dest src fun d r => (u.setReg d (alu (u.reg d) (u.reg r))).advancePc

/-- R110: Add. -/
def execAdd (dest src : Nat) (s : State) : Outcome :=
  s.executeOnTarget [dest, src] (add dest src)

end Sys2Proof.Machine
end

