-- ==== Sys2Proof/Machine/Flags.lean ====
section
/-! DEFINITION. The unit's only status bit, the running flag (R31). The unit has no condition codes: no carry, overflow,
zero or sign flag (R34), so no instruction computes a flag but Halt. -/

namespace Sys2Proof.Machine

/-- `running <- true`, by the loader (R31, R88). -/
def UnitState.setRunning (u : UnitState) : UnitState := { u with running := true }

/-- `running <- false`, by Halt (R31, R121). -/
def UnitState.clearRunning (u : UnitState) : UnitState := { u with running := false }

/-- The two states of a unit, named after `running` (R33). Neither is a sleep state (R150). -/
inductive UnitMode where
  | idle
  | active
deriving DecidableEq, Repr

/-- R33: `Idle` when `running` is false, `Active` when it is true. -/
def UnitState.mode (u : UnitState) : UnitMode := if u.running then .active else .idle

end Sys2Proof.Machine
end

