-- ==== Sys2Proof/Machine/Control.lean ====
section
/-! DEFINITION. The control instructions: Jump and Halt. Neither has a register operand, and neither can fail. -/

namespace Sys2Proof.Machine

/-- R120 on one unit: `pc <- address`, unchecked, and no increment afterwards. -/
def jump (address : Word) (u : UnitState) : Except ErrorKind UnitState := .ok (u.setPc address)

/-- R120: Jump. -/
def execJump (address : Word) (s : State) : Outcome := s.executeOnTarget [] (jump address)

/-- R121 on one unit: `running <- false`; `pc` stays. -/
def halt (u : UnitState) : Except ErrorKind UnitState := .ok u.clearRunning

/-- R121: Halt. -/
def execHalt (s : State) : Outcome := s.executeOnTarget [] halt

end Sys2Proof.Machine
end

