-- ==== Sys2Proof/Machine/DataMovement.lean ====
section
/-! DEFINITION. The data-movement instructions: LoadImmediate and Move. -/

namespace Sys2Proof.Machine

/-- R100 on one unit: `x[reg] <- value`, `pc <- pc +_64 1`. -/
def loadImmediate (reg : Nat) (value : Word) (u : UnitState) : Except ErrorKind UnitState :=
  withRegister reg fun r => (u.setReg r value).advancePc

/-- R100: LoadImmediate. -/
def execLoadImmediate (reg : Nat) (value : Word) (s : State) : Outcome :=
  s.executeOnTarget [reg] (loadImmediate reg value)

/-- R101 on one unit: `x[dest] <- x[src]`, `pc <- pc +_64 1`. -/
def move (dest src : Nat) (u : UnitState) : Except ErrorKind UnitState :=
  withRegisters dest src fun d r => (u.setReg d (u.reg r)).advancePc

/-- R101: Move. -/
def execMove (dest src : Nat) (s : State) : Outcome :=
  s.executeOnTarget [dest, src] (move dest src)

end Sys2Proof.Machine
end

