-- ==== Sys2Proof/Machine/Dispatch.lean ====
section
/-! DEFINITION. The dispatch of R89: one arm per variant, no wildcard (R3, R60). -/

namespace Sys2Proof.Machine

def exec (i : Instr) (s : State) : Host.Outcome State Fault Refusal :=
  match i with
  | .loadImmediate reg value => Sys2Proof.Machine.execLoadImmediate reg value s
  | .move dest src => Sys2Proof.Machine.execMove dest src s
  | .add dest src => Sys2Proof.Machine.execAdd dest src s
  | .jump address => Sys2Proof.Machine.execJump address s
  | .halt => Sys2Proof.Machine.execHalt s

end Sys2Proof.Machine
end

