-- ==== Sys2Proof/Machine/HostOps.lean ====
section
/-! DEFINITION. The host's operations that execute no instruction: the loader (R88), the memory region's two operations
(R43, R44), the memory port (R56) and the lifecycle (R142). -/

namespace Sys2Proof.Machine

/-- R88: `pc <- start_address`, `running <- true`, and nothing else; the registers keep their values. -/
def UnitState.load (u : UnitState) (start : Word) : UnitState := (u.setPc start).setRunning

/-- The host's `read` (R43): the byte, or `OutOfBounds`. A read changes no state. -/
def State.readMem (s : State) (address : Word) : Outcome :=
  match s.mem.read address with
  | .ok b => .next (s.withReply (.byte b))
  | .error e => s.raise e

/-- The host's `write` (R44): the byte is stored, or `OutOfBounds` and no byte changes. -/
def State.writeMem (s : State) (address : Word) (byte : Byte) : Outcome :=
  match s.mem.write address byte with
  | .ok m => .next (({ s with mem := m } : State).withReply .ok)
  | .error e => s.raise e

/-- R142: `start`. From any state but Created it has no behaviour and is refused (D14). -/
def State.startHost (s : State) : Outcome :=
  match s.lifecycle with
  | .created => .next (({ s with lifecycle := .running } : State).withReply .ok)
  | .running => .refused .startNotCreated
  | .stopped => .refused .startNotCreated
  | .error => .refused .startNotCreated

/-- R142: `stop`. An illegal stop raises `IllegalTransition` and latches the lifecycle at Error: the one error that
changes state (DEDUCED, log 13). -/
def State.stopHost (s : State) : Outcome :=
  match s.lifecycle with
  | .running => .next (({ s with lifecycle := .stopped } : State).withReply .ok)
  | .created => ({ s with lifecycle := .error } : State).raise .illegalTransition
  | .stopped => ({ s with lifecycle := .error } : State).raise .illegalTransition
  | .error => ({ s with lifecycle := .error } : State).raise .illegalTransition

/-- R56: the address of a memory cycle is outside the region. -/
def Memory.oob (m : Memory) (ins : MemIn) : Bool := !m.inBounds ins.memAddr

/-- R56: one clock cycle of the memory port. The outputs are combinational; a write is committed at the edge. -/
def State.memCycle (s : State) (ins : MemIn) : Outcome :=
  if ins.memOp = 0b00#2 then .next (s.withReply (.memPort { memRdata := 0#8, memOob := false }))
  else if ins.memOp = 0b01#2 then
    .next (s.withReply (.memPort
      { memRdata := if s.mem.oob ins then 0#8 else s.mem.byteAt ins.memAddr, memOob := s.mem.oob ins }))
  else if ins.memOp = 0b10#2 then
    .next (({ s with mem := if s.mem.oob ins then s.mem else s.mem.setByte ins.memAddr ins.memWdata } : State).withReply
      (.memPort { memRdata := 0#8, memOob := s.mem.oob ins }))
  else .refused .memOpNotAllowed

end Sys2Proof.Machine
end

