-- ==== Sys2Proof/Decode.lean ====
section
/-! DEFINITION. The decoder of the 128-bit instruction word (R62 to R66, R69), the encoder (R67), the match and mask
rows of the opcode map (R68), and the little-endian byte form of a word (R71). -/

namespace Sys2Proof

/-- Field `tag`, bits [7:0] (R62). -/
def tagField (w : InstrWord) : BitVec 8 := w.extractLsb' 0 8

/-- Field `a`, bits [15:8] (R62). -/
def aField (w : InstrWord) : BitVec 8 := w.extractLsb' 8 8

/-- Field `b`, bits [23:16] (R62). -/
def bField (w : InstrWord) : BitVec 8 := w.extractLsb' 16 8

/-- Field `rsv`, bits [63:24] (R62). -/
def rsvField (w : InstrWord) : BitVec 40 := w.extractLsb' 24 40

/-- Field `imm`, bits [127:64] (R62). -/
def immField (w : InstrWord) : Word := w.extractLsb' 64 64

/-- Why a word is `Illegal` (R69). The spec has the one verdict; the names say which clause of R66 refuses the word. -/
inductive Illegal where
  /-- `rsv` is not zero (R65, R66). -/
  | reservedNotZero
  /-- The tag is `0x00` or `0x06` to `0xFF` (R64). -/
  | noSuchTag
  /-- A field that the variant does not use is not zero (R65). -/
  | unusedFieldNotZero
deriving DecidableEq, Repr

/-- The instruction, if the fields its variant does not use are zero (R65). -/
def ifUnusedZero (zero : Bool) (i : Instr) : Except Illegal Instr :=
  if zero then .ok i else .error .unusedFieldNotZero

/-- R66: decoding, total on every word. It validates no register index. -/
def decode (w : InstrWord) : Except Illegal Instr :=
  if rsvField w ≠ 0#40 then .error .reservedNotZero
  else if tagField w = 0x01#8 then
    ifUnusedZero (bField w == 0#8) (.loadImmediate (aField w).toNat (immField w))
  else if tagField w = 0x02#8 then
    ifUnusedZero (immField w == 0#64) (.move (aField w).toNat (bField w).toNat)
  else if tagField w = 0x03#8 then
    ifUnusedZero (immField w == 0#64) (.add (aField w).toNat (bField w).toNat)
  else if tagField w = 0x04#8 then
    ifUnusedZero (aField w == 0#8 && bField w == 0#8) (.jump (immField w))
  else if tagField w = 0x05#8 then
    ifUnusedZero (aField w == 0#8 && bField w == 0#8 && immField w == 0#64) .halt
  else .error .noSuchTag

/-- A register index in its 8-bit field, zero-extended to the word (R67 `zext_128`). -/
def indexBits (i : Nat) : InstrWord := (BitVec.ofNat 8 i).setWidth 128

/-- A 64-bit operand moved to bits [127:64] (R67 `value << 64`). -/
def immBits (v : Word) : InstrWord := (v.setWidth 128) <<< 64

/-- R67: the word of a well-formed instruction. (An index of 256 or more has no encoding, R61: `Instr.wellFormed` is
the caller's duty.) -/
def encode : Instr → InstrWord
  | .loadImmediate reg value => immBits value ||| (indexBits reg <<< 8) ||| 0x01#128
  | .move dest src => (indexBits src <<< 16) ||| (indexBits dest <<< 8) ||| 0x02#128
  | .add dest src => (indexBits src <<< 16) ||| (indexBits dest <<< 8) ||| 0x03#128
  | .jump address => immBits address ||| 0x04#128
  | .halt => 0x05#128

/-- The tag of a variant (R64). -/
def Instr.tag : Instr → BitVec 8
  | .loadImmediate _ _ => 0x01#8
  | .move _ _ => 0x02#8
  | .add _ _ => 0x03#8
  | .jump _ => 0x04#8
  | .halt => 0x05#8

/-- One row of the opcode map: a word is the instruction when `w &&& mask = pattern` (R68). -/
structure OpcodeRow where
  pattern : InstrWord
  mask : InstrWord
deriving DecidableEq, Repr

/-- R68's row of an instruction's variant. -/
def Instr.row : Instr → OpcodeRow
  | .loadImmediate _ _ => ⟨0x00000000000000000000000000000001, 0x0000000000000000FFFFFFFFFFFF00FF⟩
  | .move _ _ => ⟨0x00000000000000000000000000000002, 0xFFFFFFFFFFFFFFFFFFFFFFFFFF0000FF⟩
  | .add _ _ => ⟨0x00000000000000000000000000000003, 0xFFFFFFFFFFFFFFFFFFFFFFFFFF0000FF⟩
  | .jump _ => ⟨0x00000000000000000000000000000004, 0x0000000000000000FFFFFFFFFFFFFFFF⟩
  | .halt => ⟨0x00000000000000000000000000000005, 0xFFFFFFFFFFFFFFFFFFFFFFFFFFFFFFFF⟩

/-- The five rows of R68, in the order of the table. -/
def opcodeMap : List OpcodeRow :=
  [(Instr.loadImmediate 0 0).row, (Instr.move 0 0).row, (Instr.add 0 0).row, (Instr.jump 0).row, Instr.halt.row]

/-- The word is one of the row's (R68). -/
def OpcodeRow.accepts (r : OpcodeRow) (w : InstrWord) : Bool := w &&& r.mask == r.pattern

/-- R71: byte `k` of a stored word, little-endian (byte 0 holds bits [7:0]). -/
def storedByte (w : InstrWord) (k : Nat) : Byte := w.extractLsb' (8 * k) 8

/-- R71: a word as the sixteen bytes a tool stores, lowest address first. -/
def storedBytes (w : InstrWord) : List Byte := (List.range 16).map (storedByte w)

/-- The little-endian number that a list of bytes stands for. -/
def littleEndian : List Byte → Nat
  | [] => 0
  | b :: bs => b.toNat + 256 * littleEndian bs

/-- R71, read back: the word that sixteen stored bytes hold; no other number of bytes is a word (R70). -/
def wordOfBytes (bs : List Byte) : Option InstrWord :=
  if bs.length = 16 then some (BitVec.ofNat 128 (littleEndian bs)) else none

/-- What the decoder reads from a table row's word: `nbits` bits of `w`, every bit above them zero. The instruction has
one 128-bit word (R70), so the word is what the instruction port carries (R81). -/
def decodeTableWord (nbits w : Nat) : Option Instr :=
  (decode (BitVec.ofNat 128 (w % 2 ^ nbits))).toOption

end Sys2Proof
end

