-- ==== Sys2Proof/Machine/Ports.lean ====
section
/-! DEFINITION. The combinational outputs of a unit's ports: the error report (R84) and the observation (R85);
and the inputs of the driver's cycles (R96). -/

namespace Sys2Proof.Machine

/-- R133: the report of the instruction's invalid register operands, if it has one. Jump and Halt have no register
operand (R131). -/
def invalidOperands : Instr → Option Report
  | .loadImmediate reg _ => if badIndex reg then some (reportOne reg) else none
  | .move dest src => if badIndex dest || badIndex src then some (reportTwo dest src) else none
  | .add dest src => if badIndex dest || badIndex src then some (reportTwo dest src) else none
  | .jump _ => none
  | .halt => none

/-- R84's `status = 00`: success, or nothing to report. All five outputs are 0. -/
def quietOut : ErrorOut := { status := 0b00#2, errBadA := false, errBadB := false, errIdxA := 0#8, errIdxB := 0#8 }

/-- R84's `status = 10`: `IllegalInstruction`; the other error outputs are 0 (R132). -/
def illegalOut : ErrorOut := { status := 0b10#2, errBadA := false, errBadB := false, errIdxA := 0#8, errIdxB := 0#8 }

/-- R84's `status = 01`: `InvalidRegister`, with the report. -/
def invalidOut (r : Report) : ErrorOut :=
  { status := 0b01#2, errBadA := r.badA, errBadB := r.badB, errIdxA := r.idxA, errIdxB := r.idxB }

/-- R84, R134: the error report of a presented word. Decoding comes before operand validation. -/
def wordOut (w : InstrWord) : ErrorOut :=
  match decode w with
  | .error _ => illegalOut
  | .ok i =>
    match invalidOperands i with
    | some r => invalidOut r
    | none => quietOut

/-- R84: the error report in a cycle. When nothing is presented, or `rst` or `load_valid` is 1, all outputs are 0. -/
def errorOut (ins : UnitIn) : ErrorOut :=
  if !ins.execValid || ins.rst || ins.loadValid then quietOut else wordOut ins.execInstr

/-- R84, R133: the error that a report of the presented word `w` stands for, none for `status = 00`. -/
def ErrorOut.raised (o : ErrorOut) (w : InstrWord) : Option ErrorKind :=
  if o.status = 0b00#2 then none
  else if o.status = 0b01#2 then
    some (.invalidRegister { badA := o.errBadA, idxA := o.errIdxA, badB := o.errBadB, idxB := o.errIdxB })
  else some (.illegalInstruction w)

/-- The inputs of one cycle of the driver (R96): `exec_valid` with the word, or no request at all. -/
def PortSlot.ins (p : PortSlot) : UnitIn :=
  match p.word with
  | some w => { execValid := true, execInstr := w, obsIdx := p.obsIdx }
  | none => { obsIdx := p.obsIdx }

/-- R81, R84, R85: the outputs in a cycle, with the state committed at the last rising edge. -/
def UnitState.outputs (u : UnitState) (ins : UnitIn) : UnitOut :=
  { err := errorOut ins, pc := u.pc, running := u.running, obsData := u.reg ins.obsIdx.toFin }

end Sys2Proof.Machine
end

