-- ==== Sys2Proof/Machine/Driver.lean ====
section
/-! DEFINITION. How instructions reach a unit: presentation and decoding (R89), a cycle of a unit's ports (R82), the
load-and-run driver as one contract (R90), as the machine performs it, one instruction a step, and as a host performs it
on a unit's ports, one cycle a step (R96), and the host's operations in order (R51). -/

namespace Sys2Proof.Machine

/-! ### Presenting one instruction -/

/-- R89's `decode(w)`: the instruction, or the error an illegal word raises (R132). An instruction presented decoded
needs no decoding, and cannot be illegal (R89). -/
def Presented.instr : Presented → Except ErrorKind Instr
  | .word w =>
    match decode w with
    | .ok i => .ok i
    | .error _ => .error (.illegalInstruction w)
  | .decoded i => .ok i

/-- R89: `execute` of what is presented to the unit whose port is driven. -/
def State.present (s : State) (p : Presented) : Outcome :=
  match p.instr with
  | .ok i => exec i s
  | .error e => s.onUnit s.target fun _ => .error e

/-! ### One clock cycle on a unit's ports -/

/-- R82, R83: what happens at the rising edge that ends a cycle of unit `k`, whose state is `u`. -/
def State.edge (s : State) (k : Nat) (u : UnitState) (ins : UnitIn) : Outcome :=
  if ins.rst then .next (s.setUnit k UnitState.fresh)
  else if ins.loadValid && ins.execValid then .refused .loadWithExecute
  else if ins.loadValid then .next (s.setUnit k (u.load ins.loadAddr))
  else if ins.execValid then s.present (.word ins.execInstr)
  else .next s

/-- R82: one clock cycle on the ports of unit `k`. The reply is the cycle's outputs, which show the state before the
edge (R85; log 15). -/
def State.unitCycle (s : State) (k : Nat) (ins : UnitIn) : Outcome :=
  match s.units[k]? with
  | none => .refused .noSuchUnit
  | some u => mapNext (fun t => t.withReply (.unitPorts (u.outputs ins))) ((s.withTarget k).edge k u ins)

/-! ### The load-and-run driver -/

/-- The unit whose port is driven is running. -/
def State.targetRunning (s : State) : Bool :=
  match s.units[s.target]? with
  | some u => u.running
  | none => false

/-- The last operation raised an error. -/
def Reply.isError : Reply → Bool
  | .error _ => true
  | .idle => false
  | .ok => false
  | .byte _ => false
  | .unitPorts _ => false
  | .memPort _ => false

/-- R90: the driver stops feeding after this instruction: it raised an error, or `running` is false after it. -/
def State.feedStops (s : State) : Bool := s.reply.isError || !s.targetRunning

/-- R90: the driver's loader start on unit `k`, whose state is `u`. -/
def State.loadUnit (s : State) (k : Nat) (u : UnitState) (start : Word) : State :=
  ((s.withTarget k).setUnit k (u.load start)).withReply .ok

/-- R90: the loop `for each w in instructions`, as one operation. -/
def State.feedAll : List Presented → State → Outcome
  | [], s => .next (s.withReply .ok)
  | p :: rest, s =>
    match s.present p with
    | .next t => if t.feedStops then .next t else State.feedAll rest t
    | .fault r => .fault r
    | .refused r => .refused r

/-- R90: `loadAndRun` as one operation, the contract. The machine performs it one instruction a step
(`State.beginRun`, `State.feedStep`). -/
def State.loadAndRun (s : State) (k : Nat) (instructions : List Presented) (start : Word) : Outcome :=
  if s.units = [] then s.raise .noUnitsAvailable
  else
    match s.units[k]? with
    | none => .refused .noSuchUnit
    | some u => State.feedAll instructions (s.loadUnit k u start)

/-- The sequence still to be fed, or none when it is exhausted. -/
def remaining : List Presented → Option Feed
  | [] => none
  | p :: rest => some (.direct (p :: rest))

/-- R90: the first step of `loadAndRun`: the errors that come before the loader start, or that start. An empty
sequence ends the run at once (R91). -/
def State.beginRun (s : State) (k : Nat) (instructions : List Presented) (start : Word) : Outcome :=
  if s.units = [] then s.raise .noUnitsAvailable
  else
    match s.units[k]? with
    | none => .refused .noSuchUnit
    | some u => .next { s.loadUnit k u start with feed := remaining instructions }

/-- R90: after a fed instruction, the run goes on with `rest` or returns; its result is the last reply. -/
def State.continueRun (rest : List Presented) (s : State) : State :=
  if s.feedStops then { s with feed := none } else { s with feed := remaining rest }

/-- The return of `loadAndRun` with its result (R97). -/
def State.returnRun (s : State) (result : Reply) : State := ({ s with feed := none } : State).withReply result

/-- R90: one step of a `loadAndRun` in progress: the next instruction of the sequence, in sequence order, whatever `pc`
holds (R30). -/
def State.feedStep (s : State) : List Presented → Outcome
  | [] => .next (s.returnRun .ok)
  | p :: rest => mapNext (State.continueRun rest) (s.present p)

/-! ### The load-and-run driver on a unit's ports -/

/-- R96: the run on the ports goes on with the cycles `slots`, or, with none left, returns success. -/
def State.awaitSlots (slots : List PortSlot) (s : State) : State :=
  match slots with
  | [] => s.returnRun .ok
  | slot :: rest => { s with feed := some (.ports (slot :: rest)) }

/-- R96: the first cycle of the run on the ports: the loader start, with the errors that R90 puts before it. -/
def State.beginPorts (s : State) (k : Nat) (slots : List PortSlot) (start : Word) (obsIdx : BitVec 4) : Outcome :=
  if s.units = [] then s.raise .noUnitsAvailable
  else mapNext (State.awaitSlots slots)
    (s.unitCycle k { loadValid := true, loadAddr := start, obsIdx := obsIdx })

/-- R96: after a cycle of the run on the ports. After an execute cycle the host reads `status`, as it was before the edge,
and `running`, as it is after it, and stops issuing at an error or when `running = 0`; an idle cycle changes nothing. -/
def State.afterSlot (slot : PortSlot) (rest : List PortSlot) (s : State) : State :=
  match slot.word with
  | none => s.awaitSlots rest
  | some w =>
    match (errorOut slot.ins).raised w with
    | some e => s.returnRun (.error e)
    | none => if s.targetRunning then s.awaitSlots rest else s.returnRun .ok

/-- R96: one cycle of the run on the ports of the target unit. -/
def State.portStep (s : State) : List PortSlot → Outcome
  | [] => .next (s.returnRun .ok)
  | slot :: rest => mapNext (State.afterSlot slot rest) (s.unitCycle s.target slot.ins)

/-- One step of the `loadAndRun` in progress (R90, R96). -/
def State.runStep (s : State) : Feed → Outcome
  | .direct instructions => s.feedStep instructions
  | .ports slots => s.portStep slots

/-! ### The host -/

/-- One operation of the host (R51). -/
def State.perform (s : State) : HostOp → Outcome
  | .loadAndRun k instructions start => s.beginRun k instructions start
  | .drivePorts k slots start obsIdx => s.beginPorts k slots start obsIdx
  | .execute k p => (s.withTarget k).present p
  | .read address => s.readMem address
  | .write address byte => s.writeMem address byte
  | .start => s.startHost
  | .stop => s.stopHost
  | .unitCycle k ins => s.unitCycle k ins
  | .memCycle ins => s.memCycle ins

/-- The host's next operation; with none left nothing is presented and nothing changes (R82, R161). -/
def State.hostStep (s : State) : Outcome :=
  match s.agenda with
  | [] => .next (s.withReply .idle)
  | op :: rest => ({ s with agenda := rest } : State).perform op

/-- The word `w` stands where the next step takes its instruction from: at the head of what the run in progress has
still to feed, or, with no run, as the host's next operation on the unit whose port is driven (log 2). -/
def State.placeNext (s : State) (w : InstrWord) : State :=
  match s.feed with
  | some (.direct instructions) => { s with feed := some (.direct (.word w :: instructions)) }
  | some (.ports slots) => { s with feed := some (.ports ({ word := some w } :: slots)) }
  | none => { s with agenda := .execute s.target (.word w) :: s.agenda }

end Sys2Proof.Machine
end

