-- ==== Sys2Proof/Machine/Step.lean ====
section
/-! DEFINITION. One step of the machine. The unit does not fetch: an instruction is what the driver or the host presents
(R30, R54). A run in progress goes to its end before the host's next operation (R51, R94). -/

namespace Sys2Proof.Machine

/-- One step: the next instruction or cycle of the `loadAndRun` in progress, or else the host's next operation. -/
def step (s : State) : Host.Outcome State Fault Refusal :=
  match s.feed with
  | some run => s.runStep run
  | none => s.hostStep

/-- The `nbits` low bits of `w`, every bit above them zero, as the word the next step presents (log 2). -/
def State.withFetchWord (s : State) (nbits w : Nat) : State :=
  s.placeNext (BitVec.ofNat 128 (w % 2 ^ nbits))

end Sys2Proof.Machine
end

