-- ==== Sys2Proof/Machine/Assembler.lean ====
section
/-! DEFINITION. The assembler syntax of R72: the canonical record form (`Add` followed by its operands in braces, with
optional field names), and the short form (`add r0, r1`). Every line is one of the five variants and assembles to one
word (R73). Lines are lists of characters. No part of the machine's step reads this file. -/

namespace Sys2Proof.Machine

/-- One line of assembler text. -/
abbrev Line := List Char

/-- A token: a run of letters, digits and `_`, or one other character. Spaces separate tokens. -/
inductive Token where
  | name (cs : Line)
  | mark (c : Char)
deriving DecidableEq, Repr

/-- The brace that opens a record's operands. -/
def openBrace : Char := Char.ofNat 123

/-- The brace that closes a record's operands. -/
def closeBrace : Char := Char.ofNat 125

/-- The character belongs to a name or a number. -/
def isNameChar (c : Char) : Bool := c.isAlphanum || c == '_'

/-- The pending name, if it has a character. -/
def endName : Line → List Token
  | [] => []
  | c :: cs => [.name (c :: cs)]

/-- The tokens of a line, `pending` being the name read so far. -/
def tokensFrom (pending : Line) : Line → List Token
  | [] => endName pending
  | c :: cs =>
    if isNameChar c then tokensFrom (pending ++ [c]) cs
    else if c = ' ' then endName pending ++ tokensFrom [] cs
    else endName pending ++ .mark c :: tokensFrom [] cs

/-- The value of a digit, decimal or hexadecimal. -/
def digitValue (c : Char) : Nat :=
  if c.isDigit then c.toNat - '0'.toNat
  else if 'a' ≤ c ∧ c ≤ 'f' then c.toNat - 'a'.toNat + 10
  else if 'A' ≤ c ∧ c ≤ 'F' then c.toNat - 'A'.toNat + 10
  else 16

/-- The number that a nonempty run of digits writes in a base, read from the left. -/
def numberIn (base : Nat) (digits : Line) : Option Nat :=
  if digits ≠ [] ∧ digits.all (fun c => digitValue c < base) then
    some (digits.foldl (fun n c => base * n + digitValue c) 0)
  else none

/-- A number: `0x` and hexadecimal digits, or decimal digits (R72). -/
def number : Line → Option Nat
  | '0' :: 'x' :: digits => numberIn 16 digits
  | digits => numberIn 10 digits

/-- A number operand, or `u64::MAX`, which is 2^64 - 1 (R72). -/
def operand : List Token → Option (Nat × List Token)
  | .name ['u', '6', '4'] :: .mark ':' :: .mark ':' :: .name ['M', 'A', 'X'] :: rest => some (2 ^ 64 - 1, rest)
  | .name digits :: rest => (number digits).map fun n => (n, rest)
  | _ => none

/-- An operand of the record form, with or without its field name (R72; log 17). -/
def field (fieldName : Line) : List Token → Option (Nat × List Token)
  | .name cs :: .mark ':' :: rest => if cs = fieldName then operand rest else operand (.name cs :: .mark ':' :: rest)
  | tokens => operand tokens

/-- `rN`: register index `N` of the short form (R72). DESIGN CHOICE (log 18): `N` is decimal digits only; R72 does not say
whether it may be written in `0x` hexadecimal, as other numbers may. -/
def register : List Token → Option (Nat × List Token)
  | .name ('r' :: digits) :: rest => (numberIn 10 digits).map fun n => (n, rest)
  | _ => none

/-- A 64-bit value, of a number that fits (R13). -/
def valueOf (n : Nat) : Option Word := if n < 2 ^ 64 then some (BitVec.ofNat 64 n) else none

/-- The token `c` stands next. -/
def expect (c : Char) : List Token → Option (List Token)
  | .mark d :: rest => if d = c then some rest else none
  | _ => none

/-- Nothing stands after the instruction. -/
def atEnd (i : Instr) : List Token → Option Instr
  | [] => some i
  | _ :: _ => none

/-- Two operands with a comma between, read by `first` and `second`. -/
def pair (first second : List Token → Option (Nat × List Token)) (tokens : List Token) :
    Option ((Nat × Nat) × List Token) := do
  let (m, rest) ← first tokens
  let rest ← expect ',' rest
  let (n, rest) ← second rest
  pure ((m, n), rest)

/-- The operands `inside` between braces. -/
def braced {α : Type} (inside : List Token → Option (α × List Token)) (tokens : List Token) :
    Option (α × List Token) := do
  let rest ← expect openBrace tokens
  let (x, rest) ← inside rest
  let rest ← expect closeBrace rest
  pure (x, rest)

/-- The tokens of one line as an instruction, in the record form or the short form (R72). -/
def parseTokens : List Token → Option Instr
  | .name ['L', 'o', 'a', 'd', 'I', 'm', 'm', 'e', 'd', 'i', 'a', 't', 'e'] :: rest => do
    let ((reg, n), rest) ← braced (pair (field ['r', 'e', 'g']) (field ['v', 'a', 'l', 'u', 'e'])) rest
    let value ← valueOf n
    atEnd (.loadImmediate reg value) rest
  | .name ['M', 'o', 'v', 'e'] :: rest => do
    let ((dest, src), rest) ← braced (pair (field ['d', 'e', 's', 't']) (field ['s', 'r', 'c'])) rest
    atEnd (.move dest src) rest
  | .name ['A', 'd', 'd'] :: rest => do
    let ((dest, src), rest) ← braced (pair (field ['d', 'e', 's', 't']) (field ['s', 'r', 'c'])) rest
    atEnd (.add dest src) rest
  | .name ['J', 'u', 'm', 'p'] :: rest => do
    let (n, rest) ← braced (field ['a', 'd', 'd', 'r', 'e', 's', 's']) rest
    let address ← valueOf n
    atEnd (.jump address) rest
  | .name ['H', 'a', 'l', 't'] :: rest => atEnd .halt rest
  | .name ['l', 'i'] :: rest => do
    let ((reg, n), rest) ← pair register operand rest
    let value ← valueOf n
    atEnd (.loadImmediate reg value) rest
  | .name ['m', 'o', 'v'] :: rest => do
    let ((dest, src), rest) ← pair register register rest
    atEnd (.move dest src) rest
  | .name ['a', 'd', 'd'] :: rest => do
    let ((dest, src), rest) ← pair register register rest
    atEnd (.add dest src) rest
  | .name ['j', 'm', 'p'] :: rest => do
    let (n, rest) ← operand rest
    let address ← valueOf n
    atEnd (.jump address) rest
  | .name ['h', 'a', 'l', 't'] :: rest => atEnd .halt rest
  | _ => none

/-- R73: an assembly line is one of the five variants. -/
def parseLine (line : Line) : Option Instr := parseTokens (tokensFrom [] line)

/-- R73: an assembly line assembles to one word. An index of 256 or more has no encoding (R61). -/
def assemble (line : Line) : Option InstrWord :=
  (parseLine line).bind fun i => if i.wellFormed then some (encode i) else none

/-- A number in decimal digits. -/
def decimal (n : Nat) : Line := Nat.toDigits 10 n

/-- Two operands with a comma between. -/
def commaText (m n : Line) : Line := m ++ [',', ' '] ++ n

/-- Operands between braces. -/
def bracedText (inside : Line) : Line := openBrace :: inside ++ [closeBrace]

/-- The canonical record form, with positional fields (R72). -/
def recordForm : Instr → Line
  | .loadImmediate reg value =>
    ['L', 'o', 'a', 'd', 'I', 'm', 'm', 'e', 'd', 'i', 'a', 't', 'e'] ++
      bracedText (commaText (decimal reg) (decimal value.toNat))
  | .move dest src => ['M', 'o', 'v', 'e'] ++ bracedText (commaText (decimal dest) (decimal src))
  | .add dest src => ['A', 'd', 'd'] ++ bracedText (commaText (decimal dest) (decimal src))
  | .jump address => ['J', 'u', 'm', 'p'] ++ bracedText (decimal address.toNat)
  | .halt => ['H', 'a', 'l', 't']

/-- The short form (R72). -/
def shortForm : Instr → Line
  | .loadImmediate reg value => ['l', 'i', ' '] ++ commaText ('r' :: decimal reg) (decimal value.toNat)
  | .move dest src => ['m', 'o', 'v', ' '] ++ commaText ('r' :: decimal dest) ('r' :: decimal src)
  | .add dest src => ['a', 'd', 'd', ' '] ++ commaText ('r' :: decimal dest) ('r' :: decimal src)
  | .jump address => ['j', 'm', 'p', ' '] ++ decimal address.toNat
  | .halt => ['h', 'a', 'l', 't']

end Sys2Proof.Machine
end

