-- ==== Sys2Proof/Safety.lean ====
section
/-! DEFINITION. The terms the statements use: the invariant of the machine, what the next step presents, loads, resets or
writes, and what an operation leaves alone. -/

namespace Sys2Proof.Machine

/-- A `loadAndRun` in progress has an instruction or a cycle left, and its unit exists and is running: the driver feeds a
unit only until its `running` is false or the sequence is exhausted (R90, R96). -/
def State.feedOk (s : State) : Bool :=
  match s.feed with
  | none => true
  | some (.direct []) => false
  | some (.direct (_ :: _)) => s.targetRunning
  | some (.ports []) => false
  | some (.ports (_ :: _)) => s.targetRunning

/-- The invariant that every step keeps: the memory region is in canonical form, and a run in progress is a legal one. -/
abbrev State.Inv (s : State) : Prop := s.mem.wf = true ∧ s.feedOk = true

/-- What the next step presents for execution, and to which unit: the next instruction of the run in progress (R90,
R96), or the host's next operation (R80), or an execute cycle (R82). -/
def State.presents (s : State) : Option (Nat × Presented) :=
  match s.feed with
  | some (.direct []) => none
  | some (.direct (p :: _)) => some (s.target, p)
  | some (.ports []) => none
  | some (.ports (slot :: _)) => slot.word.map fun w => (s.target, .word w)
  | none =>
    match s.agenda with
    | .execute k p :: _ => some (k, p)
    | .unitCycle k ins :: _ =>
      if !ins.rst && !ins.loadValid && ins.execValid then some (k, .word ins.execInstr) else none
    | _ => none

/-- The next step is a reset cycle of unit `k` (R82, R160). -/
def State.resetsUnit (s : State) (k : Nat) : Bool :=
  match s.feed, s.agenda with
  | none, .unitCycle j ins :: _ => j == k && ins.rst
  | _, _ => false

/-- The next step is a loader start of unit `k`, by `loadAndRun` (R90, R96) or on its ports (R82, R88). -/
def State.loadsUnit (s : State) (k : Nat) : Bool :=
  match s.feed, s.agenda with
  | none, .loadAndRun j _ _ :: _ => j == k
  | none, .drivePorts j _ _ _ :: _ => j == k
  | none, .unitCycle j ins :: _ => j == k && !ins.rst && ins.loadValid
  | _, _ => false

/-- The next step is a write of the byte at `address`, by the host (R44) or on the memory port (R56). -/
def State.writesByte (s : State) (address : Word) : Bool :=
  match s.feed, s.agenda with
  | none, .write a _ :: _ => a == address
  | none, .memCycle ins :: _ => ins.memOp == 0b10#2 && ins.memAddr == address
  | _, _ => false

/-- The register an instruction writes (R23). -/
def destination : Instr → Option Nat
  | .loadImmediate reg _ => some reg
  | .move dest _ => some dest
  | .add dest _ => some dest
  | .jump _ => none
  | .halt => none

/-- The register indices of an instruction, in the order of its fields (R60). -/
def registerIndices : Instr → List Nat
  | .loadImmediate reg _ => [reg]
  | .move dest src => [dest, src]
  | .add dest src => [dest, src]
  | .jump _ => []
  | .halt => []

/-- The value a register operand reads (R14, R20). An index of 16 or more names no register (R22). -/
def regAt (u : UnitState) (n : Nat) : Word := if h : n < Config.numRegs then u.reg ⟨n, h⟩ else 0

/-- Register `j` after an instruction that succeeds on `u` (R100, R101, R110, R120, R121). -/
def regAfter (i : Instr) (u : UnitState) (j : Fin Config.numRegs) : Word :=
  match i with
  | .loadImmediate reg value => if j.val = reg then value else u.reg j
  | .move dest src => if j.val = dest then regAt u src else u.reg j
  | .add dest src => if j.val = dest then regAt u dest + regAt u src else u.reg j
  | .jump _ => u.reg j
  | .halt => u.reg j

/-- `pc` after an instruction that succeeds on `u` (R29, R100, R101, R110, R120, R121). -/
def pcAfter (i : Instr) (u : UnitState) : Word :=
  match i with
  | .loadImmediate _ _ => u.pc + 1
  | .move _ _ => u.pc + 1
  | .add _ _ => u.pc + 1
  | .jump address => address
  | .halt => u.pc

/-- `running` after an instruction that succeeds on `u` (R31, R121). -/
def runningAfter (i : Instr) (u : UnitState) : Bool :=
  match i with
  | .loadImmediate _ _ => u.running
  | .move _ _ => u.running
  | .add _ _ => u.running
  | .jump _ => u.running
  | .halt => false

/-- `s` with the running flag of the unit whose port is driven at `b`. -/
def State.withRunning (s : State) (b : Bool) : State :=
  { s with units := s.units.modify s.target fun u => { u with running := b } }

/-- `s` with the lifecycle at `l`. -/
def State.withLifecycle (s : State) (l : Lifecycle) : State := { s with lifecycle := l }

/-- `s` with what is left of the host's agenda. -/
def State.withAgenda (s : State) (agenda : List HostOp) : State := { s with agenda := agenda }

/-- Every byte of the memory region reads in `t` as it reads in `s`. -/
def sameBytes (s t : State) : Prop := t.mem.size = s.mem.size ∧ ∀ address, t.mem.read address = s.mem.read address

/-- `t` is `s` but for unit `k` and the reply: every other unit, every byte of memory, the lifecycle, and the host's own
plans are as they were. -/
def sameButUnit (k : Nat) (s t : State) : Prop :=
  t.units.length = s.units.length ∧ (∀ j, j ≠ k → t.units[j]? = s.units[j]?) ∧ sameBytes s t ∧
    t.lifecycle = s.lifecycle ∧ t.agenda = s.agenda ∧ t.target = s.target ∧ t.feed = s.feed

/-- The run on the ports goes on with the cycles `rest`, or returns success when none is left (R96). -/
def goesOn (rest : List PortSlot) (t : State) : Prop :=
  (rest = [] → t.feed = none ∧ t.reply = .ok) ∧ (rest ≠ [] → t.feed = some (.ports rest))

/-- Two outcomes of an operation show a caller the same: the same state of the target unit and the same reply, or the
same refusal. -/
def sameAtTarget : Outcome → Outcome → Prop
  | .next t, .next t' => t.units[t.target]? = t'.units[t'.target]? ∧ t.reply = t'.reply
  | .refused r, .refused r' => r = r'
  | _, _ => False

end Sys2Proof.Machine
end

