-- ==== Sys2Proof/Certificates/Slice0/Obligations.lean ====
section
/-! DEFINITION. The statements for the provers, in the order of the spec's files. -/

open Sys2Proof Sys2Proof.Machine

/-! ### Reset, the invariant, and what a step can change -/

/-- R160: construction gives zeroed units, zeroed memory and the lifecycle Created, and a reset cycle of a unit restores
that unit to what construction made it, and touches no other unit and no memory byte. -/
def Obligations.ConstructionAndUnitReset : Prop :=
  (∀ numUnits memSize : Nat,
    (State.construct numUnits memSize).units.length = numUnits ∧
    (∀ (k : Nat) (u : UnitState), (State.construct numUnits memSize).units[k]? = some u →
      (∀ i, u.reg i = 0) ∧ u.pc = 0 ∧ u.running = false) ∧
    (State.construct numUnits memSize).mem.size = memSize ∧
    (∀ a : Word, a.toNat < memSize → (State.construct numUnits memSize).mem.read a = .ok 0) ∧
    (State.construct numUnits memSize).lifecycle = .created) ∧
  (∀ (s : State) (k : Nat) (u : UnitState) (ins : UnitIn), s.units[k]? = some u → ins.rst = true →
    ∃ t v, s.unitCycle k ins = .next t ∧ t.units[k]? = some v ∧ (∀ i, v.reg i = 0) ∧ v.pc = 0 ∧ v.running = false ∧
      t.units[k]? = (State.construct s.units.length s.mem.size).units[k]? ∧
      (∀ j, j ≠ k → t.units[j]? = s.units[j]?) ∧ sameBytes s t ∧ t.lifecycle = s.lifecycle)

/-- Every constructed host meets the invariant. `State.reset` is one of them: its two parameters are the model's choice
(log 1), as are its empty agenda, feed, target and reply (logs 2 to 5). -/
def Obligations.ConstructedHostMeetsInvariant : Prop :=
  (∀ numUnits memSize : Nat, (State.construct numUnits memSize).Inv) ∧
  State.reset = State.construct Config.numUnits Config.memSize ∧ State.reset.Inv

/-- Every step keeps the invariant: the memory region stays canonical, and a run in progress stays one the driver of R90
would still feed. -/
def Obligations.StepKeepsInvariant : Prop :=
  ∀ s t : State, s.Inv → step s = .next t → t.Inv

/-- No step changes the number of units or the size of the memory region (R40, R146). -/
def Obligations.StepKeepsUnitCountAndMemorySize : Prop :=
  ∀ s t : State, step s = .next t → t.units.length = s.units.length ∧ t.mem.size = s.mem.size

/-- A unit changes in a step only if the step presents an instruction to it, starts it or resets it (R25, R94). -/
def Obligations.UnitChangesOnlyWhenDriven : Prop :=
  ∀ (s t : State) (k : Nat), step s = .next t → t.units[k]? ≠ s.units[k]? →
    (∃ p, s.presents = some (k, p)) ∨ s.loadsUnit k = true ∨ s.resetsUnit k = true

/-- A register changes in a step only if the instruction the step presents writes it, or its unit is reset (R23). -/
def Obligations.RegisterChangesOnlyByItsInstruction : Prop :=
  ∀ (s t : State) (k : Nat) (u v : UnitState) (i : Fin Config.numRegs), step s = .next t →
    s.units[k]? = some u → t.units[k]? = some v → v.reg i ≠ u.reg i →
    (∃ p instr, s.presents = some (k, p) ∧ p.instr = .ok instr ∧ destination instr = some i.val) ∨
    s.resetsUnit k = true

/-- The running flag is set only by the loader, and cleared only by Halt and by a unit's reset (R31, R160). -/
def Obligations.RunningChangesOnlyByLoaderHaltReset : Prop :=
  ∀ (s t : State) (k : Nat) (u v : UnitState), step s = .next t →
    s.units[k]? = some u → t.units[k]? = some v →
    (u.running = false → v.running = true → s.loadsUnit k = true) ∧
    (u.running = true → v.running = false →
      (∃ p, s.presents = some (k, p) ∧ p.instr = .ok .halt) ∨ s.resetsUnit k = true)

/-- A byte of memory changes in a step only if the host writes it; no instruction reaches memory (R41). -/
def Obligations.MemoryChangesOnlyByHostWrite : Prop :=
  ∀ (s t : State) (a : Word), s.Inv → step s = .next t → t.mem.read a ≠ s.mem.read a → s.writesByte a = true

/-- The lifecycle changes in a step only by `start` and `stop`, and once Error it stays Error (R142, R143). -/
def Obligations.LifecycleChangesOnlyByStartAndStop : Prop :=
  ∀ s t : State, step s = .next t → t.lifecycle ≠ s.lifecycle →
    s.feed = none ∧ ∃ rest,
      (s.agenda = .start :: rest ∧ s.lifecycle = .created ∧ t.lifecycle = .running) ∨
      (s.agenda = .stop :: rest ∧ s.lifecycle = .running ∧ t.lifecycle = .stopped) ∨
      (s.agenda = .stop :: rest ∧ s.lifecycle ≠ .running ∧ s.lifecycle ≠ .error ∧ t.lifecycle = .error)

/-! ### The memory region -/

/-- R43: `read` returns the byte and changes nothing, or raises OutOfBounds. -/
def Obligations.ReadReturnsByteOrOutOfBounds : Prop :=
  ∀ (s : State) (a : Word) (rest : List HostOp), s.feed = none → s.agenda = .read a :: rest →
    (a.toNat < s.mem.size → step s = .next ((s.withAgenda rest).withReply (.byte (s.mem.byteAt a)))) ∧
    (s.mem.size ≤ a.toNat → step s = .next ((s.withAgenda rest).withReply (.error (.outOfBounds a))))

/-- R44: `write` stores one byte, which reads back, and leaves every other byte; or raises OutOfBounds and stores none. -/
def Obligations.WriteStoresOneByteOrOutOfBounds : Prop :=
  ∀ (s : State) (a : Word) (b : Byte) (rest : List HostOp), s.mem.wf = true → s.feed = none →
    s.agenda = .write a b :: rest →
    (a.toNat < s.mem.size → ∃ t, step s = .next t ∧ t.reply = .ok ∧ t.mem.read a = .ok b ∧
      (∀ a', a' ≠ a → t.mem.read a' = s.mem.read a') ∧ t.mem.size = s.mem.size ∧ t.units = s.units ∧
      t.lifecycle = s.lifecycle ∧ t.agenda = rest ∧ t.target = s.target ∧ t.feed = none) ∧
    (s.mem.size ≤ a.toNat → step s = .next ((s.withAgenda rest).withReply (.error (.outOfBounds a))))

/-- Two canonical regions of one size that read the same everywhere are equal data; an address is 64 bits (R42), so the
size is at most 2^64 (log 16). -/
def Obligations.CanonicalMemoryIsUnique : Prop :=
  ∀ m m' : Memory, m.wf = true → m'.wf = true → m.size = m'.size → m.size ≤ 2 ^ 64 →
    (∀ a : Word, m.read a = m'.read a) → m = m'

/-- R56: the memory port's table, as the step performs a cycle of it: each `mem_op`, in and out of bounds, agrees with
`read` and `write`, and `11` is refused. -/
def Obligations.MemoryPortFollowsItsTable : Prop :=
  ∀ (s : State) (ins : MemIn) (rest : List HostOp), s.feed = none → s.agenda = .memCycle ins :: rest →
    (ins.memOp = 0b00 → step s = .next ((s.withAgenda rest).withReply (.memPort ⟨0, false⟩))) ∧
    (ins.memOp = 0b01 → ∀ b, s.mem.read ins.memAddr = .ok b →
      step s = .next ((s.withAgenda rest).withReply (.memPort ⟨b, false⟩))) ∧
    (ins.memOp = 0b01 → s.mem.size ≤ ins.memAddr.toNat →
      step s = .next ((s.withAgenda rest).withReply (.memPort ⟨0, true⟩))) ∧
    (ins.memOp = 0b10 → ∀ m, s.mem.write ins.memAddr ins.memWdata = .ok m →
      step s = .next (({ s.withAgenda rest with mem := m } : State).withReply (.memPort ⟨0, false⟩))) ∧
    (ins.memOp = 0b10 → s.mem.size ≤ ins.memAddr.toNat →
      step s = .next ((s.withAgenda rest).withReply (.memPort ⟨0, true⟩))) ∧
    (ins.memOp = 0b11 → step s = .refused .memOpNotAllowed)

/-! ### The encoding -/

/-- Decoding and encoding are inverse to each other, for every well-formed instruction and every legal word. -/
def Obligations.DecodeInvertsEncode : Prop :=
  (∀ i : Instr, i.wellFormed = true → decode (encode i) = .ok i) ∧
  (∀ (w : InstrWord) (i : Instr), decode w = .ok i → i.wellFormed = true ∧ encode i = w)

/-- The encoding's formulas as numbers: each field at its place, nothing else set. -/
def Obligations.EncodeIsItsFormula : Prop :=
  (∀ (reg : Nat) (value : Word), reg < 256 →
    (encode (.loadImmediate reg value)).toNat = value.toNat * 2 ^ 64 + reg * 2 ^ 8 + 1) ∧
  (∀ dest src : Nat, dest < 256 → src < 256 →
    (encode (.move dest src)).toNat = src * 2 ^ 16 + dest * 2 ^ 8 + 2 ∧
    (encode (.add dest src)).toNat = src * 2 ^ 16 + dest * 2 ^ 8 + 3) ∧
  (∀ address : Word, (encode (.jump address)).toNat = address.toNat * 2 ^ 64 + 4) ∧
  (encode .halt).toNat = 5

/-- What the decoder reads, in the bits of the word as a number: the tag in bits 7 to 0, `a` in 15 to 8, `b` in 23 to 16,
the reserved field in 63 to 24, `imm` in 127 to 64, and zero in every field the variant does not use. -/
def Obligations.DecodeReadsTheFields : Prop :=
  ∀ (w : InstrWord) (i : Instr), decode w = .ok i ↔
    w.toNat / 2 ^ 24 % 2 ^ 40 = 0 ∧
    ((w.toNat % 2 ^ 8 = 1 ∧ w.toNat / 2 ^ 16 % 2 ^ 8 = 0 ∧
        i = .loadImmediate (w.toNat / 2 ^ 8 % 2 ^ 8) (BitVec.ofNat 64 (w.toNat / 2 ^ 64))) ∨
     (w.toNat % 2 ^ 8 = 2 ∧ w.toNat / 2 ^ 64 = 0 ∧
        i = .move (w.toNat / 2 ^ 8 % 2 ^ 8) (w.toNat / 2 ^ 16 % 2 ^ 8)) ∨
     (w.toNat % 2 ^ 8 = 3 ∧ w.toNat / 2 ^ 64 = 0 ∧
        i = .add (w.toNat / 2 ^ 8 % 2 ^ 8) (w.toNat / 2 ^ 16 % 2 ^ 8)) ∨
     (w.toNat % 2 ^ 8 = 4 ∧ w.toNat / 2 ^ 8 % 2 ^ 16 = 0 ∧ i = .jump (BitVec.ofNat 64 (w.toNat / 2 ^ 64))) ∨
     (w.toNat % 2 ^ 8 = 5 ∧ w.toNat / 2 ^ 8 % 2 ^ 16 = 0 ∧ w.toNat / 2 ^ 64 = 0 ∧ i = .halt))

/-- The opcode map: a word is legal exactly when a row accepts it, the row is its instruction's, and no word is accepted
by two rows. -/
def Obligations.OpcodeMapPartitionsLegalWords : Prop :=
  (∀ w : InstrWord, (∃ i, decode w = .ok i) ↔ ∃ r ∈ opcodeMap, r.accepts w = true) ∧
  (∀ (w : InstrWord) (i : Instr), decode w = .ok i → i.row.accepts w = true) ∧
  opcodeMap.Pairwise fun r q => ∀ w : InstrWord, ¬ (r.accepts w = true ∧ q.accepts w = true)

/-- R71: the stored form of a word is little-endian, and it reads back. -/
def Obligations.StoredWordIsLittleEndian : Prop :=
  ∀ w : InstrWord, (storedBytes w).length = 16 ∧ (storedBytes w)[0]? = some (tagField w) ∧
    (∀ k, k < 8 → (storedBytes w)[8 + k]? = some ((immField w).extractLsb' (8 * k) 8)) ∧
    wordOfBytes (storedBytes w) = some w

/-- The examples of R68 and the first vectors of `95_test_vectors.md` section 2.1 decode as the spec says. -/
def Obligations.ExampleWordsDecode : Prop :=
  decode 0x000000000000001E0000000000000001 = .ok (.loadImmediate 0 30) ∧
  decode 0x00000000000000000000000000141402 = .ok (.move 20 20) ∧
  decode 0x00000000000000000000000000010003 = .ok (.add 0 1) ∧
  decode 0x00000000000001000000000000000004 = .ok (.jump 0x100) ∧
  decode 0x00000000000000000000000000000005 = .ok .halt ∧
  decode 0x00000000000000000000000000000000 = .error .noSuchTag ∧
  decode 0x00000000000000008000000000000003 = .error .reservedNotZero ∧
  decode 0x00000000000000010000000000000005 = .error .unusedFieldNotZero

/-- R72, R73: the record form and the short form of an instruction both assemble to its one word. -/
def Obligations.AssemblyLinesAssemble : Prop :=
  ∀ i : Instr, i.wellFormed = true →
    assemble (recordForm i) = some (encode i) ∧ assemble (shortForm i) = some (encode i)

/-! ### The five instructions -/

/-- R100: LoadImmediate: its words, its result and frame, and its error. -/
def Obligations.LoadImmediateFollowsItsRule : Prop :=
  (∀ w : InstrWord, (Instr.loadImmediate 0 0).row.accepts w = true →
    decode w = .ok (.loadImmediate (aField w).toNat (immField w))) ∧
  (∀ (w : InstrWord) (s : State) (u : UnitState), tagField w = 0x01 →
    (Instr.loadImmediate 0 0).row.accepts w = false → s.units[s.target]? = some u →
    s.present (.word w) = .next (s.withReply (.error (.illegalInstruction w)))) ∧
  (∀ (s : State) (u : UnitState) (reg : Fin Config.numRegs) (value : Word), s.units[s.target]? = some u →
    ∃ t v, exec (.loadImmediate reg.val value) s = .next t ∧ t.reply = .ok ∧ t.units[s.target]? = some v ∧
      v.reg reg = value ∧ (∀ j, j ≠ reg → v.reg j = u.reg j) ∧ v.pc.toNat = (u.pc.toNat + 1) % 2 ^ 64 ∧
      v.running = u.running ∧ sameButUnit s.target s t) ∧
  (∀ (s : State) (u : UnitState) (reg : Nat) (value : Word), s.units[s.target]? = some u → 16 ≤ reg → reg < 256 →
    exec (.loadImmediate reg value) s =
      .next (s.withReply (.error (.invalidRegister ⟨true, BitVec.ofNat 8 reg, false, 0⟩))))

/-- R101: Move: its words, its result and frame, and its error. -/
def Obligations.MoveFollowsItsRule : Prop :=
  (∀ w : InstrWord, (Instr.move 0 0).row.accepts w = true →
    decode w = .ok (.move (aField w).toNat (bField w).toNat)) ∧
  (∀ (w : InstrWord) (s : State) (u : UnitState), tagField w = 0x02 →
    (Instr.move 0 0).row.accepts w = false → s.units[s.target]? = some u →
    s.present (.word w) = .next (s.withReply (.error (.illegalInstruction w)))) ∧
  (∀ (s : State) (u : UnitState) (dest src : Fin Config.numRegs), s.units[s.target]? = some u →
    ∃ t v, exec (.move dest.val src.val) s = .next t ∧ t.reply = .ok ∧ t.units[s.target]? = some v ∧
      v.reg dest = u.reg src ∧ (∀ j, j ≠ dest → v.reg j = u.reg j) ∧ v.pc.toNat = (u.pc.toNat + 1) % 2 ^ 64 ∧
      v.running = u.running ∧ sameButUnit s.target s t) ∧
  (∀ (s : State) (u : UnitState) (dest src : Nat), s.units[s.target]? = some u → dest < 256 → src < 256 →
    16 ≤ dest ∨ 16 ≤ src →
    exec (.move dest src) s = .next (s.withReply (.error (.invalidRegister
      ⟨decide (16 ≤ dest), BitVec.ofNat 8 dest, decide (16 ≤ src), BitVec.ofNat 8 src⟩))))

/-- R110: Add: its words, its result and frame, and its error. -/
def Obligations.AddFollowsItsRule : Prop :=
  (∀ w : InstrWord, (Instr.add 0 0).row.accepts w = true →
    decode w = .ok (.add (aField w).toNat (bField w).toNat)) ∧
  (∀ (w : InstrWord) (s : State) (u : UnitState), tagField w = 0x03 →
    (Instr.add 0 0).row.accepts w = false → s.units[s.target]? = some u →
    s.present (.word w) = .next (s.withReply (.error (.illegalInstruction w)))) ∧
  (∀ (s : State) (u : UnitState) (dest src : Fin Config.numRegs), s.units[s.target]? = some u →
    ∃ t v, exec (.add dest.val src.val) s = .next t ∧ t.reply = .ok ∧ t.units[s.target]? = some v ∧
      (v.reg dest).toNat = ((u.reg dest).toNat + (u.reg src).toNat) % 2 ^ 64 ∧
      (∀ j, j ≠ dest → v.reg j = u.reg j) ∧ v.pc.toNat = (u.pc.toNat + 1) % 2 ^ 64 ∧
      v.running = u.running ∧ sameButUnit s.target s t) ∧
  (∀ (s : State) (u : UnitState) (dest src : Nat), s.units[s.target]? = some u → dest < 256 → src < 256 →
    16 ≤ dest ∨ 16 ≤ src →
    exec (.add dest src) s = .next (s.withReply (.error (.invalidRegister
      ⟨decide (16 ≤ dest), BitVec.ofNat 8 dest, decide (16 ≤ src), BitVec.ofNat 8 src⟩))))

/-- R120: Jump: its words, its result and frame. -/
def Obligations.JumpFollowsItsRule : Prop :=
  (∀ w : InstrWord, (Instr.jump 0).row.accepts w = true → decode w = .ok (.jump (immField w))) ∧
  (∀ (w : InstrWord) (s : State) (u : UnitState), tagField w = 0x04 →
    (Instr.jump 0).row.accepts w = false → s.units[s.target]? = some u →
    s.present (.word w) = .next (s.withReply (.error (.illegalInstruction w)))) ∧
  (∀ (s : State) (u : UnitState) (address : Word), s.units[s.target]? = some u →
    ∃ t v, exec (.jump address) s = .next t ∧ t.reply = .ok ∧ t.units[s.target]? = some v ∧
      v.pc = address ∧ (∀ j, v.reg j = u.reg j) ∧ v.running = u.running ∧ sameButUnit s.target s t)

/-- R121: Halt: its one word, its result and frame, from either value of the running flag. -/
def Obligations.HaltFollowsItsRule : Prop :=
  (∀ w : InstrWord, decode w = .ok .halt ↔ w = 0x05) ∧
  (∀ (w : InstrWord) (s : State) (u : UnitState), tagField w = 0x05 → w ≠ 0x05 → s.units[s.target]? = some u →
    s.present (.word w) = .next (s.withReply (.error (.illegalInstruction w)))) ∧
  (∀ (s : State) (u : UnitState), s.units[s.target]? = some u →
    ∃ t v, exec .halt s = .next t ∧ t.reply = .ok ∧ t.units[s.target]? = some v ∧
      v.running = false ∧ v.pc = u.pc ∧ (∀ j, v.reg j = u.reg j) ∧ sameButUnit s.target s t)

/-- R24: Move copies a value: no later instruction that writes another register changes the copy. -/
def Obligations.MoveCopiesByValue : Prop :=
  ∀ (s t t' : State) (u v v' : UnitState) (dest src : Fin Config.numRegs) (i : Instr),
    s.units[s.target]? = some u → exec (.move dest.val src.val) s = .next t →
    destination i = some src.val → src ≠ dest → exec i t = .next t' →
    t.units[t.target]? = some v → t'.units[t'.target]? = some v' →
    v.reg dest = v.reg src ∧ v'.reg dest = u.reg src

/-- R112: the sum does not depend on the order of the operands; the register that gets it does. -/
def Obligations.AddWritesTheSameSumIntoEitherOperand : Prop :=
  (∀ (s : State) (u : UnitState) (a b : Fin Config.numRegs), s.units[s.target]? = some u →
    ∃ t t' v v', exec (.add a.val b.val) s = .next t ∧ exec (.add b.val a.val) s = .next t' ∧
      t.units[s.target]? = some v ∧ t'.units[s.target]? = some v' ∧
      v.reg a = v'.reg b ∧ (a ≠ b → v.reg b = u.reg b ∧ v'.reg a = u.reg a)) ∧
  (∀ x y z : Word, alu x y = alu y x ∧ alu (alu x y) z = alu x (alu y z))

/-- R29: every increment of `pc` at 2^64 - 1 gives 0. -/
def Obligations.PcIncrementWraps : Prop :=
  ∀ (s t : State) (u v : UnitState) (i : Instr), s.units[s.target]? = some u → u.pc.toNat = 2 ^ 64 - 1 →
    (destination i).isSome = true → exec i s = .next t → t.reply = .ok → t.units[s.target]? = some v → v.pc = 0

/-! ### Errors -/

/-- R133: InvalidRegister is raised exactly when a register index of the instruction is 16 or more; its report names
every invalid index, and at least one; nothing but the reply changes. -/
def Obligations.InvalidRegisterReportNamesEveryBadIndex : Prop :=
  ∀ (i : Instr) (s : State) (u : UnitState), i.wellFormed = true → s.units[s.target]? = some u →
    ((∃ n ∈ registerIndices i, 16 ≤ n) ↔
      ∃ r, exec i s = .next (s.withReply (.error (.invalidRegister r)))) ∧
    (∀ t r, exec i s = .next t → t.reply = .error (.invalidRegister r) →
      t = s.withReply t.reply ∧ (r.badA = true ∨ r.badB = true) ∧
      (r.badA = true ↔ ∃ n, (registerIndices i)[0]? = some n ∧ 16 ≤ n) ∧
      (r.badB = true ↔ ∃ n, (registerIndices i)[1]? = some n ∧ 16 ≤ n) ∧
      (registerIndices i)[0]? = some r.idxA.toNat ∧
      (registerIndices i)[1]?.getD 0 = r.idxB.toNat)

/-- R132: an illegal word raises IllegalInstruction, which reports the word and changes nothing; in hardware
`status = 10` and the other error outputs are 0. -/
def Obligations.IllegalWordRaisesIllegalInstruction : Prop :=
  ∀ (w : InstrWord) (e : Illegal), decode w = .error e →
    (∀ (s : State) (u : UnitState), s.units[s.target]? = some u →
      s.present (.word w) = .next (s.withReply (.error (.illegalInstruction w)))) ∧
    (∀ ins : UnitIn, ins.rst = false → ins.loadValid = false → ins.execValid = true → ins.execInstr = w →
      errorOut ins = ⟨0b10, false, false, 0, 0⟩)

/-- R86: an instruction applies fully or has no effect: a presented instruction that raises none has every operand valid,
its unit holds the instruction's whole result, and nothing else changed; one that raises an error leaves everything but
the reply as it was. -/
def Obligations.InstructionAppliesFullyOrNotAtAll : Prop :=
  ∀ (s t : State) (p : Presented), s.present p = .next t →
    (t.reply = .ok ∧ sameButUnit s.target s t ∧
      ∃ i u v, p.instr = .ok i ∧ (∀ n ∈ registerIndices i, n < 16) ∧
        s.units[s.target]? = some u ∧ t.units[s.target]? = some v ∧
        (∀ j, v.reg j = regAfter i u j) ∧ v.pc = pcAfter i u ∧ v.running = runningAfter i u) ∨
    (∃ e, t = s.withReply (.error e))

/-- An index of 256 or more has no encoding, and the model refuses it by name (R61; C6 and ID11 say so; log 6). -/
def Obligations.UnencodableIndexIsRefused : Prop :=
  ∀ (i : Instr) (s : State), (∃ n ∈ registerIndices i, 256 ≤ n) → exec i s = .refused .indexNotEncodable

/-- A unit that does not exist: an instruction for it, and a cycle of its ports, are refused by name (log 8, DEDUCED from
R93), whatever is presented that could be presented at all, and whatever the ports' inputs. -/
def Obligations.MissingUnitIsRefused : Prop :=
  (∀ (s : State) (p : Presented), s.units.length ≤ s.target → (∀ i, p.instr = .ok i → i.wellFormed = true) →
    s.present p = .refused .noSuchUnit) ∧
  (∀ (s : State) (k : Nat) (ins : UnitIn), s.units.length ≤ k → s.unitCycle k ins = .refused .noSuchUnit)

/-! ### What an instruction depends on -/

/-- `execute` reads only the unit it runs on: two hosts that agree on that unit get the same unit state and the same
reply, whatever their other units, memory and lifecycle hold (R89). -/
def Obligations.ExecuteReadsOnlyItsUnit : Prop :=
  ∀ (i : Instr) (s s' : State), s.units[s.target]? = s'.units[s'.target]? → sameAtTarget (exec i s) (exec i s')

/-- `execute` does not read `running`: with the flag at any value, every instruction but Halt does the same and leaves
the flag, and Halt ends in the same state. -/
def Obligations.ExecuteIgnoresRunning : Prop :=
  ∀ (i : Instr) (s : State) (b : Bool),
    (i ≠ .halt → exec i (s.withRunning b) = mapNext (fun t => t.withRunning b) (exec i s)) ∧
    (i = .halt → exec i (s.withRunning b) = exec i s)

/-! ### The ports -/

/-- Each row of the cycle table (R82, R87), as the step performs a cycle of the unit's ports. That the reply of an execute
cycle holds the ports' outputs as they were before the edge is the model's reading (log 15, DEDUCED). -/
def Obligations.UnitCycleFollowsItsTable : Prop :=
  ∀ (s s' : State) (k : Nat) (u : UnitState) (ins : UnitIn) (rest : List HostOp), s.feed = none →
    s.agenda = .unitCycle k ins :: rest → s.units[k]? = some u → s' = (s.withAgenda rest).withTarget k →
    (ins.rst = true → ∃ t, step s = .next t ∧ t.units[k]? = some UnitState.fresh ∧ sameButUnit k s' t) ∧
    (ins.rst = false → ins.loadValid = false → ins.execValid = false →
      ∃ t, step s = .next t ∧ t.units = s.units ∧ sameButUnit k s' t) ∧
    (ins.rst = false → ins.loadValid = true → ins.execValid = false →
      ∃ t v, step s = .next t ∧ t.units[k]? = some v ∧ v.pc = ins.loadAddr ∧ v.running = true ∧
        (∀ i, v.reg i = u.reg i) ∧ sameButUnit k s' t) ∧
    (ins.rst = false → ins.loadValid = false → ins.execValid = true →
      ∃ t, s'.present (.word ins.execInstr) = .next t ∧
        step s = .next (t.withReply (.unitPorts (u.outputs ins)))) ∧
    (ins.rst = false → ins.loadValid = true → ins.execValid = true → step s = .refused .loadWithExecute)

/-- R84: the error report: 0 when nothing is executed; else its status is the result of the execution, and its bits and
indices are the fields of the word when a register is invalid, 0 otherwise. -/
def Obligations.ErrorReportDescribesTheExecution : Prop :=
  ∀ ins : UnitIn,
    (ins.execValid = false ∨ ins.rst = true ∨ ins.loadValid = true → errorOut ins = ⟨0b00, false, false, 0, 0⟩) ∧
    (errorOut ins).status ≠ 0b11 ∧
    (ins.execValid = true → ins.rst = false → ins.loadValid = false →
      ∀ (s t : State) (u : UnitState), s.units[s.target]? = some u →
        s.present (.word ins.execInstr) = .next t →
        ((errorOut ins).status = 0b00 ↔ t.reply = .ok) ∧
        ((errorOut ins).status = 0b01 ↔ ∃ r, t.reply = .error (.invalidRegister r)) ∧
        ((errorOut ins).status = 0b10 ↔ t.reply = .error (.illegalInstruction ins.execInstr)) ∧
        ((errorOut ins).status = 0b01 →
          (errorOut ins).errBadA = decide (16 ≤ (aField ins.execInstr).toNat) ∧
          (errorOut ins).errBadB = (tagField ins.execInstr != 0x01 && decide (16 ≤ (bField ins.execInstr).toNat)) ∧
          (errorOut ins).errIdxA = aField ins.execInstr ∧ (errorOut ins).errIdxB = bField ins.execInstr) ∧
        ((errorOut ins).status ≠ 0b01 →
          (errorOut ins).errBadA = false ∧ (errorOut ins).errBadB = false ∧
          (errorOut ins).errIdxA = 0 ∧ (errorOut ins).errIdxB = 0))

/-- In every cycle that is allowed, the reply's observation outputs show the state before the edge that ends the cycle.
That the reply of a cycle holds them is the model's reading of R85 (log 15, DEDUCED). -/
def Obligations.ObservationShowsTheCommittedState : Prop :=
  ∀ (s : State) (k : Nat) (u : UnitState) (ins : UnitIn), s.units[k]? = some u →
    (ins.rst = true ∨ ins.loadValid = false ∨ ins.execValid = false) →
    ∃ t o, s.unitCycle k ins = .next t ∧ t.reply = .unitPorts o ∧ o.pc = u.pc ∧ o.running = u.running ∧
      o.obsData = u.reg ins.obsIdx.toFin

/-! ### The loader and the driver -/

/-- R88: a loader start, by the driver or on the ports, sets `pc` and `running` and nothing else. -/
def Obligations.LoaderSetsPcAndRunningOnly : Prop :=
  ∀ (s : State) (k : Nat) (u : UnitState) (start : Word), s.units[k]? = some u →
    (∀ instructions, ∃ t v, s.beginRun k instructions start = .next t ∧ t.units[k]? = some v ∧
      v.pc = start ∧ v.running = true ∧ (∀ i, v.reg i = u.reg i) ∧
      (∀ j, j ≠ k → t.units[j]? = s.units[j]?) ∧ sameBytes s t ∧ t.lifecycle = s.lifecycle) ∧
    (∀ ins : UnitIn, ins.rst = false → ins.loadValid = true → ins.execValid = false → ins.loadAddr = start →
      ∃ t v, s.unitCycle k ins = .next t ∧ t.units[k]? = some v ∧
        v.pc = start ∧ v.running = true ∧ (∀ i, v.reg i = u.reg i) ∧
        (∀ j, j ≠ k → t.units[j]? = s.units[j]?) ∧ sameBytes s t ∧ t.lifecycle = s.lifecycle)

/-- R92: on a host with no unit, `loadAndRun` raises NoUnitsAvailable and changes nothing. -/
def Obligations.NoUnitsRaisesNoUnitsAvailable : Prop :=
  ∀ (s : State) (k : Nat) (instructions : List Presented) (start : Word) (rest : List HostOp), s.units = [] →
    s.loadAndRun k instructions start = .next (s.withReply (.error .noUnitsAvailable)) ∧
    (s.feed = none → s.agenda = .loadAndRun k instructions start :: rest →
      step s = .next ((s.withAgenda rest).withReply (.error .noUnitsAvailable)))

/-- R93: on a host that has units, `loadAndRun` on a unit it does not have is refused. -/
def Obligations.UnitIndexOutOfRangeIsRefused : Prop :=
  ∀ (s : State) (k : Nat) (instructions : List Presented) (start : Word) (rest : List HostOp),
    0 < s.units.length → s.units.length ≤ k →
    s.loadAndRun k instructions start = .refused .noSuchUnit ∧
    (s.feed = none → s.agenda = .loadAndRun k instructions start :: rest → step s = .refused .noSuchUnit)

/-- The machine's driver, one instruction a step (log 5, DEDUCED), does what the contract of R90 says as one operation:
after at most one step more than there are instructions it has the contract's outcome, be it a result, an error or a
refusal. -/
def Obligations.DriverRefinesLoadAndRun : Prop :=
  ∀ (s : State) (k : Nat) (instructions : List Presented) (start : Word), s.feed = none →
    ∃ n, n ≤ instructions.length + 1 ∧
      Host.Core.run Sys2Proof.core n (s.withAgenda (.loadAndRun k instructions start :: s.agenda)) =
        s.loadAndRun k instructions start

/-- The ports do what `loadAndRun` does, cycle by cycle (R96): one load cycle, then an execute cycle for each word up to
and including the first error or Halt, leave the units, memory and lifecycle that `loadAndRun` leaves. `n` is how many
words that is: all of them, or those up to the one after which the run stops; after each shorter part of them the run
has success and the unit is running; and the `n` words alone have the whole run's outcome. -/
def Obligations.PortsRealizeLoadAndRun : Prop :=
  ∀ (s t : State) (k : Nat) (u : UnitState) (words : List InstrWord) (start : Word), s.feed = none →
    s.loadAndRun k (words.map Presented.word) start = .next t → t.units[k]? = some u →
    ∃ n t', n ≤ words.length ∧
      (n < words.length → (∃ e, t.reply = .error e) ∨ u.running = false) ∧
      (∀ m, m < n → ∃ r v, s.loadAndRun k ((words.take m).map Presented.word) start = .next r ∧
        r.reply = .ok ∧ r.units[k]? = some v ∧ v.running = true) ∧
      s.loadAndRun k ((words.take n).map Presented.word) start = .next t ∧
      Host.Core.run Sys2Proof.core (n + 1)
        (s.withAgenda (.unitCycle k { loadValid := true, loadAddr := start } ::
          (words.take n).map fun w => .unitCycle k { execValid := true, execInstr := w })) = .next t' ∧
      t'.units = t.units ∧ t'.mem = t.mem ∧ t'.lifecycle = t.lifecycle ∧ t'.agenda = []

/-- R94: `loadAndRun` changes no other unit and no byte of memory. -/
def Obligations.LoadAndRunTouchesOneUnit : Prop :=
  ∀ (s t : State) (k : Nat) (instructions : List Presented) (start : Word),
    s.loadAndRun k instructions start = .next t →
    t.units.length = s.units.length ∧ (∀ j, j ≠ k → t.units[j]? = s.units[j]?) ∧ sameBytes s t

/-- R143: `start` and `stop` change no unit, and `loadAndRun` neither reads nor writes the lifecycle. -/
def Obligations.LifecycleIsIndependentOfUnits : Prop :=
  (∀ s t : State, s.startHost = .next t ∨ s.stopHost = .next t → t.units = s.units) ∧
  (∀ (s : State) (k : Nat) (instructions : List Presented) (start : Word) (l : Lifecycle),
    (s.withLifecycle l).loadAndRun k instructions start =
      mapNext (fun t => t.withLifecycle l) (s.loadAndRun k instructions start))

/-- An empty sequence starts the unit and succeeds; a sequence with no Halt that succeeds leaves the unit running. -/
def Obligations.RunWithoutHaltLeavesUnitRunning : Prop :=
  (∀ (s : State) (k : Nat) (u : UnitState) (start : Word), s.units[k]? = some u →
    ∃ t v, s.loadAndRun k [] start = .next t ∧ t.reply = .ok ∧ t.units[k]? = some v ∧ v.pc = start ∧
      v.running = true ∧ ∀ i, v.reg i = u.reg i) ∧
  (∀ (s t : State) (k : Nat) (instructions : List Presented) (start : Word),
    (∀ p ∈ instructions, p.instr ≠ .ok .halt) → s.loadAndRun k instructions start = .next t →
    t.reply ≠ .error .noUnitsAvailable → ∃ v, t.units[k]? = some v ∧ v.running = true)

/-- No instruction after the first Halt is executed. -/
def Obligations.NothingRunsAfterHalt : Prop :=
  ∀ (s : State) (k : Nat) (before after : List Presented) (p : Presented) (start : Word), p.instr = .ok .halt →
    s.loadAndRun k (before ++ p :: after) start = s.loadAndRun k (before ++ [p]) start

/-- A run aborts at the first instruction that raises an error: the error is its result, the effects of the earlier
instructions stay, the failing one has none, the unit is still running, and nothing after it is executed. -/
def Obligations.RunAbortsAtTheFirstError : Prop :=
  ∀ (s t : State) (k : Nat) (u : UnitState) (before after : List Presented) (p : Presented) (start : Word)
    (e : ErrorKind),
    s.loadAndRun k before start = .next t → t.reply = .ok → t.units[k]? = some u → u.running = true →
    t.present p = .next (t.withReply (.error e)) →
    s.loadAndRun k (before ++ p :: after) start = .next (t.withReply (.error e))

/-- A Jump, presented as a word or decoded, does not choose the next instruction: a run that begins with Jump to
`address` is the run of the rest of the sequence, started at `address`; and a Jump later in the sequence, after a part of
it that ends with success and the unit running, is followed by the rest of the sequence, started at `address` where that
part left the host. -/
def Obligations.JumpDoesNotRedirectTheFeed : Prop :=
  ∀ (s : State) (k : Nat) (p : Presented) (rest : List Presented) (start address : Word),
    p.instr = .ok (.jump address) →
    s.loadAndRun k (p :: rest) start = s.loadAndRun k rest address ∧
    (∀ (before : List Presented) (t : State) (u : UnitState), s.loadAndRun k before start = .next t →
      t.reply = .ok → t.units[k]? = some u → u.running = true →
      s.loadAndRun k (before ++ p :: rest) start = t.loadAndRun k rest address)

/-- R142: the lifecycle's two operations, from each state, as the step performs them. -/
def Obligations.LifecycleFollowsItsTransitions : Prop :=
  (∀ numUnits memSize : Nat, (State.construct numUnits memSize).lifecycle = .created) ∧
  (∀ (s : State) (rest : List HostOp), s.feed = none → s.agenda = .start :: rest →
    (s.lifecycle = .created → step s = .next (((s.withAgenda rest).withLifecycle .running).withReply .ok)) ∧
    (s.lifecycle ≠ .created → step s = .refused .startNotCreated)) ∧
  (∀ (s : State) (rest : List HostOp), s.feed = none → s.agenda = .stop :: rest →
    (s.lifecycle = .running → step s = .next (((s.withAgenda rest).withLifecycle .stopped).withReply .ok)) ∧
    (s.lifecycle ≠ .running →
      step s = .next (((s.withAgenda rest).withLifecycle .error).withReply (.error .illegalTransition))))

/-! ### The step -/

/-- A step runs the decoded instruction: presented by the host, by the driver in a run, or on a unit's ports, by the host
or by the driver there, what the word decodes to is executed (R89), and the step adds what the driver and the ports add.
What they add is the model's reading: the driver's stop test in the step of the instruction (log 5, DEDUCED), the ports'
outputs before the edge as the reply of a cycle (log 15, DEDUCED), and the stop test of the host that performs the driver
on the ports (log 19, DEDUCED; that the result of the run is then the reply, DESIGN CHOICE). -/
def Obligations.StepRunsTheDecodedInstruction : Prop :=
  ∀ (s : State) (k : Nat) (u : UnitState) (w : InstrWord) (i : Instr), decode w = .ok i →
    (∀ rest, s.feed = none → s.agenda = .execute k (.word w) :: rest →
      step s = exec i ((s.withAgenda rest).withTarget k)) ∧
    (∀ rest, s.feed = some (.direct (.word w :: rest)) → step s = mapNext (State.continueRun rest) (exec i s)) ∧
    (∀ ins rest, s.feed = none → s.agenda = .unitCycle k ins :: rest → s.units[k]? = some u →
      ins.rst = false → ins.loadValid = false → ins.execValid = true → ins.execInstr = w →
      step s = mapNext (fun t => t.withReply (.unitPorts (u.outputs ins)))
        (exec i ((s.withAgenda rest).withTarget k))) ∧
    (∀ slot rest, s.feed = some (.ports (slot :: rest)) → slot.word = some w → s.units[s.target]? = some u →
      step s = mapNext (fun t => (t.withReply (.unitPorts (u.outputs slot.ins))).afterSlot slot rest) (exec i s))

/-- The word placed where the step takes its next instruction is what the step presents (log 2: the placing is the
model's own). -/
def Obligations.PlacedWordIsPresentedNext : Prop :=
  ∀ (s : State) (w : InstrWord),
    (s.feed = none → step (s.withFetchWord 128 w.toNat) = s.present (.word w)) ∧
    (∀ rest, s.feed = some (.direct rest) →
      (s.withFetchWord 128 w.toNat).feed = some (.direct (.word w :: rest))) ∧
    (∀ rest, s.feed = some (.ports rest) → ∃ slot, slot.word = some w ∧
      (s.withFetchWord 128 w.toNat).feed = some (.ports (slot :: rest)))

/-- A host with nothing to do presents nothing, and nothing changes but the reply, which is idle (log 14, DESIGN CHOICE);
with no run in progress, a step performs the host's next operation, each by its own rule (log 2: the agenda is the
model's own). -/
def Obligations.HostPerformsItsAgendaInOrder : Prop :=
  ∀ s : State, s.feed = none →
    (s.agenda = [] → step s = .next (s.withReply .idle)) ∧
    (∀ op rest, s.agenda = op :: rest → step s =
      match op with
      | .loadAndRun k instructions start => (s.withAgenda rest).beginRun k instructions start
      | .drivePorts k slots start obsIdx => (s.withAgenda rest).beginPorts k slots start obsIdx
      | .execute k p => ((s.withAgenda rest).withTarget k).present p
      | .read address => (s.withAgenda rest).readMem address
      | .write address byte => (s.withAgenda rest).writeMem address byte
      | .start => (s.withAgenda rest).startHost
      | .stop => (s.withAgenda rest).stopHost
      | .unitCycle k ins => (s.withAgenda rest).unitCycle k ins
      | .memCycle ins => (s.withAgenda rest).memCycle ins)

/-- The driver performed on a unit's ports, one cycle a step, has the outcome of `loadAndRun` of the words it was given,
be it a success, the first error or a refusal, with any idle cycles between: it issues no word after the first error or
the first Halt (R96; logs 5 and 19, DEDUCED). -/
def Obligations.PortDriverRefinesLoadAndRun : Prop :=
  ∀ (s : State) (k : Nat) (slots : List PortSlot) (start : Word) (obsIdx : BitVec 4), s.feed = none →
    ∃ n, n ≤ slots.length + 1 ∧
      Host.Core.run Sys2Proof.core n (s.withAgenda (.drivePorts k slots start obsIdx :: s.agenda)) =
        s.loadAndRun k (slots.filterMap fun slot => slot.word.map Presented.word) start

/-- A cycle of the driver on the ports of a unit: an idle cycle changes no unit, and the run goes on; an execute cycle whose
`status` is not 00 returns the error of the presented word, and nothing else changes; one with `status` 00 has the word's
effect, after which the run returns success if `running` is 0, and goes on if it is 1 (R96). That the run returns in the
very step of its last cycle is the model's reading (log 5, DEDUCED), and that its result stands in the reply there, in
place of that cycle's outputs, the model's choice (log 19, DESIGN CHOICE). -/
def Obligations.PortDriverStopsAtErrorOrHalt : Prop :=
  ∀ (s : State) (slot : PortSlot) (rest : List PortSlot) (u : UnitState),
    s.feed = some (.ports (slot :: rest)) → s.units[s.target]? = some u →
    (slot.word = none → ∃ t, step s = .next t ∧ t.units = s.units ∧ goesOn rest t) ∧
    (∀ w, slot.word = some w → (errorOut slot.ins).status ≠ 0b00 →
      ∃ e, s.present (.word w) = .next (s.withReply (.error e)) ∧ step s = .next (s.returnRun (.error e))) ∧
    (∀ w, slot.word = some w → (errorOut slot.ins).status = 0b00 →
      ∃ r t v, s.present (.word w) = .next r ∧ r.reply = .ok ∧ step s = .next t ∧ t.units = r.units ∧
        t.units[s.target]? = some v ∧ (v.running = false → t.feed = none ∧ t.reply = .ok) ∧
        (v.running = true → goesOn rest t))
end

