-- ==== Sys2Proof/Laws/Encoding.lean ====
section
/-! SUPPORT. The fields of a word, and the parts an encoded word is joined from, as numbers. -/

namespace Sys2Proof

theorem tagField_toNat (w : InstrWord) : (tagField w).toNat = w.toNat % 2 ^ 8 := by simp [tagField]

theorem aField_toNat (w : InstrWord) : (aField w).toNat = w.toNat / 2 ^ 8 % 2 ^ 8 := by
  simp [aField, Nat.shiftRight_eq_div_pow]

theorem bField_toNat (w : InstrWord) : (bField w).toNat = w.toNat / 2 ^ 16 % 2 ^ 8 := by
  simp [bField, Nat.shiftRight_eq_div_pow]

theorem rsvField_toNat (w : InstrWord) : (rsvField w).toNat = w.toNat / 2 ^ 24 % 2 ^ 40 := by
  simp [rsvField, Nat.shiftRight_eq_div_pow]

theorem immField_toNat (w : InstrWord) : (immField w).toNat = w.toNat / 2 ^ 64 := by
  have := w.isLt
  simp [immField, Nat.shiftRight_eq_div_pow]
  omega

theorem immBits_toNat (v : Word) : (immBits v).toNat = v.toNat * 2 ^ 64 := by
  have := v.isLt
  simp [immBits, Nat.shiftLeft_eq]
  omega

/-- Two words that share no bit join as a sum. -/
theorem or_toNat_of_low {x y : InstrWord} {k : Nat} (hx : x.toNat % 2 ^ k = 0) (hy : y.toNat < 2 ^ k) :
    (x ||| y).toNat = x.toNat + y.toNat := by
  rw [BitVec.toNat_or]
  obtain ⟨q, hq⟩ := Nat.dvd_of_mod_eq_zero hx
  rw [hq, mul_comm, ← Nat.shiftLeft_eq, Nat.shiftLeft_add_eq_or_of_lt hy]

end Sys2Proof
end

