-- ==== Sys2Proof/Laws/Memory.lean ====
section
/-! SUPPORT. The memory region keeps its canonical form. -/

namespace Sys2Proof.Machine

/-- Cells that start at `lo` start at any lower bound. -/
theorem cellsWf_mono {size lo lo' : Nat} {cells : List Host.Cell} (h : cellsWf size lo cells = true) (hle : lo' ≤ lo) :
    cellsWf size lo' cells = true := by
  cases cells with
  | nil => rfl
  | cons c rest =>
    simp only [cellsWf, Bool.and_eq_true, decide_eq_true_eq] at h ⊢
    exact ⟨⟨⟨le_trans hle h.1.1.1, h.1.1.2⟩, h.1.2⟩, h.2⟩

/-- Putting a byte at an address of the region keeps the cells canonical. -/
theorem putCell_wf {size a : Nat} {b : Byte} (ha : a < size) :
    ∀ {cells : List Host.Cell} {lo : Nat}, lo ≤ a → cellsWf size lo cells = true →
      cellsWf size lo (putCell cells a b) = true
  | [], lo, hlo, _ => by
    by_cases hb : b = 0#8 <;> simp [putCell, cellsWf, hb, hlo, ha]
  | (k, v) :: rest, lo, hlo, h => by
    have h' := h
    simp only [cellsWf, Bool.and_eq_true, decide_eq_true_eq] at h'
    obtain ⟨⟨⟨h1, h2⟩, h3⟩, h4⟩ := h'
    simp only [putCell]
    split
    · rename_i hlt
      by_cases hb : b = 0#8
      · simpa [hb] using h
      · simp [hb, cellsWf, hlo, ha, h2, h3, h4, Nat.succ_le_of_lt hlt]
    · split
      · rename_i hak
        subst hak
        by_cases hb : b = 0#8
        · simpa [hb] using cellsWf_mono h4 (by omega)
        · simp [hb, cellsWf, hlo, ha, h4]
      · rename_i hnlt hne
        have := putCell_wf ha (b := b) (show k + 1 ≤ a by omega) h4
        simp [cellsWf, h1, h2, h3, this]

/-- A byte stored in the region keeps it canonical. -/
theorem setByte_wf {m : Memory} {address : Word} (byte : Byte) (hm : m.wf = true) (ha : m.inBounds address = true) :
    (m.setByte address byte).wf = true :=
  putCell_wf (of_decide_eq_true ha) (Nat.zero_le _) hm

/-- A `write` keeps the region canonical. -/
theorem write_wf {m m' : Memory} {address : Word} {byte : Byte} (hm : m.wf = true)
    (h : m.write address byte = .ok m') : m'.wf = true := by
  unfold Memory.write at h
  split at h
  · cases h; exact setByte_wf byte hm ‹_›
  · cases h

/-- What a memory operation of the host or of the memory port does to the region. -/
theorem writeMem_cases {s t : State} {address : Word} {byte : Byte} (h : s.writeMem address byte = .next t) :
    (s.mem.inBounds address = true ∧
      t = ({ s with mem := s.mem.setByte address byte } : State).withReply .ok) ∨
    (s.mem.inBounds address = false ∧ t = s.withReply (.error (.outOfBounds address))) := by
  unfold State.writeMem Memory.write at h
  by_cases hb : s.mem.inBounds address = true
  · left; simp [hb] at h; exact ⟨hb, h.symm⟩
  · right
    simp only [Bool.not_eq_true] at hb
    simp [hb, State.raise] at h
    exact ⟨hb, h.symm⟩

theorem readMem_cases {s t : State} {address : Word} (h : s.readMem address = .next t) :
    (s.mem.inBounds address = true ∧ t = s.withReply (.byte (s.mem.byteAt address))) ∨
    (s.mem.inBounds address = false ∧ t = s.withReply (.error (.outOfBounds address))) := by
  unfold State.readMem Memory.read at h
  by_cases hb : s.mem.inBounds address = true
  · left; simp [hb] at h; exact ⟨hb, h.symm⟩
  · right
    simp only [Bool.not_eq_true] at hb
    simp [hb, State.raise] at h
    exact ⟨hb, h.symm⟩

theorem memCycle_cases {s t : State} {ins : MemIn} (h : s.memCycle ins = .next t) :
    ∃ o : MemOut, t = ({ s with
      mem := if ins.memOp = 0b10#2 ∧ s.mem.inBounds ins.memAddr = true then s.mem.setByte ins.memAddr ins.memWdata
        else s.mem } : State).withReply (.memPort o) := by
  unfold State.memCycle at h
  split at h
  · rename_i h0; cases h; exact ⟨_, by rw [if_neg (by simp [h0])]⟩
  split at h
  · rename_i h0
    cases h
    have hn : ¬ (ins.memOp = 0b10#2 ∧ s.mem.inBounds ins.memAddr = true) := by simp [h0]
    exact ⟨_, by rw [if_neg hn]⟩
  split at h
  · rename_i h0
    cases h
    refine ⟨⟨0, s.mem.oob ins⟩, ?_⟩
    cases hb : s.mem.inBounds ins.memAddr <;> simp [h0, Memory.oob, hb]
  · cases h

/-- The memory region of a constructed host is canonical, of `State.reset` too. -/
theorem construct_mem_wf (numUnits memSize : Nat) : (State.construct numUnits memSize).mem.wf = true := rfl

theorem reset_mem_wf : State.reset.mem.wf = true := construct_mem_wf _ _

end Sys2Proof.Machine
end

