-- ==== Sys2Proof/Laws/State.lean ====
section
/-! SUPPORT. One lemma per field per update of a unit's and of the machine's state. -/

namespace Sys2Proof.Machine

/-! ### One unit -/

section
variable (u : UnitState) (i j : Fin Config.numRegs) (v : Word)

theorem setReg_reg : (u.setReg i v).reg j = if i = j then v else u.reg j := by
  simp [UnitState.setReg, UnitState.reg, Vector.getElem_set, Fin.ext_iff]

@[simp] theorem setReg_reg_same : (u.setReg i v).reg i = v := by simp [setReg_reg]

theorem setReg_reg_other (h : j ≠ i) : (u.setReg i v).reg j = u.reg j := by simp [setReg_reg, h.symm]

@[simp] theorem setReg_pc : (u.setReg i v).pc = u.pc := rfl
@[simp] theorem setReg_running : (u.setReg i v).running = u.running := rfl

@[simp] theorem setPc_reg : (u.setPc v).reg i = u.reg i := rfl
@[simp] theorem setPc_pc : (u.setPc v).pc = v := rfl
@[simp] theorem setPc_running : (u.setPc v).running = u.running := rfl

@[simp] theorem advancePc_reg : u.advancePc.reg i = u.reg i := rfl
@[simp] theorem advancePc_pc : u.advancePc.pc = alu u.pc 1#64 := rfl
@[simp] theorem advancePc_running : u.advancePc.running = u.running := rfl

@[simp] theorem setRunning_reg : u.setRunning.reg i = u.reg i := rfl
@[simp] theorem setRunning_pc : u.setRunning.pc = u.pc := rfl
@[simp] theorem setRunning_running : u.setRunning.running = true := rfl

@[simp] theorem clearRunning_reg : u.clearRunning.reg i = u.reg i := rfl
@[simp] theorem clearRunning_pc : u.clearRunning.pc = u.pc := rfl
@[simp] theorem clearRunning_running : u.clearRunning.running = false := rfl

@[simp] theorem load_reg : (u.load v).reg i = u.reg i := rfl
@[simp] theorem load_pc : (u.load v).pc = v := rfl
@[simp] theorem load_running : (u.load v).running = true := rfl

@[simp] theorem fresh_reg : UnitState.fresh.reg i = 0 := by simp [UnitState.fresh, UnitState.reg]
@[simp] theorem fresh_pc : UnitState.fresh.pc = 0 := rfl
@[simp] theorem fresh_running : UnitState.fresh.running = false := rfl

end

/-- The ALU's result as a number: the sum modulo 2^64 (R110). -/
theorem alu_toNat (a b : Word) : (alu a b).toNat = (a.toNat + b.toNat) % 2 ^ 64 := BitVec.toNat_ofNat _ _

/-! ### The machine -/

section
variable (s : State) (k : Nat) (u : UnitState) (r : Reply)

@[simp] theorem withReply_units : (s.withReply r).units = s.units := rfl
@[simp] theorem withReply_mem : (s.withReply r).mem = s.mem := rfl
@[simp] theorem withReply_lifecycle : (s.withReply r).lifecycle = s.lifecycle := rfl
@[simp] theorem withReply_agenda : (s.withReply r).agenda = s.agenda := rfl
@[simp] theorem withReply_target : (s.withReply r).target = s.target := rfl
@[simp] theorem withReply_feed : (s.withReply r).feed = s.feed := rfl
@[simp] theorem withReply_reply : (s.withReply r).reply = r := rfl

@[simp] theorem withTarget_units : (s.withTarget k).units = s.units := rfl
@[simp] theorem withTarget_mem : (s.withTarget k).mem = s.mem := rfl
@[simp] theorem withTarget_lifecycle : (s.withTarget k).lifecycle = s.lifecycle := rfl
@[simp] theorem withTarget_agenda : (s.withTarget k).agenda = s.agenda := rfl
@[simp] theorem withTarget_target : (s.withTarget k).target = k := rfl
@[simp] theorem withTarget_feed : (s.withTarget k).feed = s.feed := rfl
@[simp] theorem withTarget_reply : (s.withTarget k).reply = s.reply := rfl

@[simp] theorem returnRun_units : (s.returnRun r).units = s.units := rfl
@[simp] theorem returnRun_mem : (s.returnRun r).mem = s.mem := rfl
@[simp] theorem returnRun_lifecycle : (s.returnRun r).lifecycle = s.lifecycle := rfl
@[simp] theorem returnRun_agenda : (s.returnRun r).agenda = s.agenda := rfl
@[simp] theorem returnRun_target : (s.returnRun r).target = s.target := rfl
@[simp] theorem returnRun_feed : (s.returnRun r).feed = none := rfl
@[simp] theorem returnRun_reply : (s.returnRun r).reply = r := rfl

@[simp] theorem setUnit_units : (s.setUnit k u).units = s.units.set k u := rfl
@[simp] theorem setUnit_mem : (s.setUnit k u).mem = s.mem := rfl
@[simp] theorem setUnit_lifecycle : (s.setUnit k u).lifecycle = s.lifecycle := rfl
@[simp] theorem setUnit_agenda : (s.setUnit k u).agenda = s.agenda := rfl
@[simp] theorem setUnit_target : (s.setUnit k u).target = s.target := rfl
@[simp] theorem setUnit_feed : (s.setUnit k u).feed = s.feed := rfl
@[simp] theorem setUnit_reply : (s.setUnit k u).reply = s.reply := rfl

/-- Unit `k` after it is set, where it exists. -/
theorem setUnit_same {w : UnitState} (h : s.units[k]? = some w) : (s.setUnit k u).units[k]? = some u := by
  obtain ⟨hk, -⟩ := List.getElem?_eq_some_iff.mp h
  simp [hk]

/-- Every other unit is as it was. -/
theorem setUnit_other {j : Nat} (h : j ≠ k) : (s.setUnit k u).units[j]? = s.units[j]? := by
  simp [List.getElem?_set_ne h.symm]

end

end Sys2Proof.Machine
end

