-- ==== Sys2Proof/Laws/Ops.lean ====
section
/-! SUPPORT. For each shared operation, one lemma that says once everything it can do. -/

namespace Sys2Proof.Machine

/-! ### Operands -/

theorem withRegister_valid {reg : Nat} (h : reg < Config.numRegs) (f : Fin Config.numRegs → UnitState) :
    withRegister reg f = .ok (f ⟨reg, h⟩) := by simp [withRegister, h]

theorem withRegister_invalid {reg : Nat} (h : Config.numRegs ≤ reg) (f : Fin Config.numRegs → UnitState) :
    withRegister reg f = .error (.invalidRegister (reportOne reg)) := by simp [withRegister, Nat.not_lt.mpr h]

theorem withRegisters_valid {dest src : Nat} (hd : dest < Config.numRegs) (hs : src < Config.numRegs)
    (f : Fin Config.numRegs → Fin Config.numRegs → UnitState) :
    withRegisters dest src f = .ok (f ⟨dest, hd⟩ ⟨src, hs⟩) := by simp [withRegisters, hd, hs]

theorem withRegisters_invalid {dest src : Nat} (h : Config.numRegs ≤ dest ∨ Config.numRegs ≤ src)
    (f : Fin Config.numRegs → Fin Config.numRegs → UnitState) :
    withRegisters dest src f = .error (.invalidRegister (reportTwo dest src)) := by
  have : ¬ (dest < Config.numRegs ∧ src < Config.numRegs) := by omega
  simp [withRegisters, this]

theorem encodableIndex_of_valid {i : Nat} (h : i < Config.numRegs) : encodableIndex i = true :=
  decide_eq_true (lt_trans h (by decide))

/-! ### Operations on a unit -/

theorem onUnit_some {s : State} {k : Nat} {u : UnitState} (h : s.units[k]? = some u)
    (f : UnitState → Except ErrorKind UnitState) :
    s.onUnit k f = match f u with
      | .ok u' => s.commitUnit k u'
      | .error e => s.raise e := by
  cases hf : f u <;> simp [State.onUnit, h, hf]

theorem onUnit_none {s : State} {k : Nat} (h : s.units[k]? = none) (f : UnitState → Except ErrorKind UnitState) :
    s.onUnit k f = .refused .noSuchUnit := by simp [State.onUnit, h]

/-- What an operation on unit `k` can do when it answers a next state: commit its result, or raise its error. -/
theorem onUnit_cases {s t : State} {k : Nat} {f : UnitState → Except ErrorKind UnitState}
    (h : s.onUnit k f = .next t) :
    ∃ u, s.units[k]? = some u ∧
      ((∃ u', f u = .ok u' ∧ t = (s.setUnit k u').withReply .ok) ∨
       (∃ e, f u = .error e ∧ t = s.withReply (.error e))) := by
  cases hu : s.units[k]? with
  | none => simp [onUnit_none hu] at h
  | some u =>
    rw [onUnit_some hu] at h
    refine ⟨u, rfl, ?_⟩
    cases hf : f u with
    | ok u' => rw [hf] at h; cases h; exact .inl ⟨u', rfl, rfl⟩
    | error e => rw [hf] at h; cases h; exact .inr ⟨e, rfl, rfl⟩

/-- An operation on a unit never faults, and refuses only a unit that does not exist. -/
theorem onUnit_refused {s : State} {k : Nat} {f : UnitState → Except ErrorKind UnitState} {r : Refusal}
    (h : s.onUnit k f = .refused r) : s.units[k]? = none ∧ r = .noSuchUnit := by
  cases hu : s.units[k]? with
  | none => rw [onUnit_none hu] at h; cases h; exact ⟨rfl, rfl⟩
  | some u =>
    rw [onUnit_some hu] at h
    cases hf : f u <;> rw [hf] at h <;> cases h

/-- What an instruction's meaning can do when it answers a next state. -/
theorem executeOnTarget_cases {s t : State} {indices : List Nat} {f : UnitState → Except ErrorKind UnitState}
    (h : s.executeOnTarget indices f = .next t) :
    indices.all encodableIndex = true ∧ ∃ u, s.units[s.target]? = some u ∧
      ((∃ u', f u = .ok u' ∧ t = (s.setUnit s.target u').withReply .ok) ∨
       (∃ e, f u = .error e ∧ t = s.withReply (.error e))) := by
  unfold State.executeOnTarget at h
  split at h
  · exact ⟨‹_›, onUnit_cases h⟩
  · cases h

theorem executeOnTarget_encodable {s : State} {indices : List Nat} (h : indices.all encodableIndex = true)
    (f : UnitState → Except ErrorKind UnitState) : s.executeOnTarget indices f = s.onUnit s.target f := by
  simp [State.executeOnTarget, h]

/-- The meaning of an instruction on one unit (R89): what `exec` commits or raises. -/
def onOneUnit : Instr → UnitState → Except ErrorKind UnitState
  | .loadImmediate reg value => loadImmediate reg value
  | .move dest src => move dest src
  | .add dest src => add dest src
  | .jump address => jump address
  | .halt => halt

/-- `exec` of a well-formed instruction is its meaning on the unit whose port is driven. -/
theorem exec_wellFormed {i : Instr} (h : i.wellFormed = true) (s : State) :
    exec i s = s.onUnit s.target (onOneUnit i) := by
  cases i <;> simp_all [exec, execLoadImmediate, execMove, execAdd, execJump, execHalt, State.executeOnTarget,
    onOneUnit, Instr.wellFormed]

/-- `exec` of an ill-formed instruction is refused by name. -/
theorem exec_illFormed {i : Instr} (h : i.wellFormed = false) (s : State) :
    exec i s = .refused .indexNotEncodable := by
  cases i <;> simp_all [exec, execLoadImmediate, execMove, execAdd, State.executeOnTarget, Instr.wellFormed]

/-- What `exec` can do when it answers a next state. -/
theorem exec_cases {i : Instr} {s t : State} (h : exec i s = .next t) :
    i.wellFormed = true ∧ ∃ u, s.units[s.target]? = some u ∧
      ((∃ u', onOneUnit i u = .ok u' ∧ t = (s.setUnit s.target u').withReply .ok) ∨
       (∃ e, onOneUnit i u = .error e ∧ t = s.withReply (.error e))) := by
  cases hw : i.wellFormed with
  | false => simp [exec_illFormed hw] at h
  | true => exact ⟨rfl, onUnit_cases (exec_wellFormed hw s ▸ h)⟩

/-! ### Presenting, and the steps of the machine -/

theorem present_decoded {s : State} {p : Presented} {i : Instr} (h : p.instr = .ok i) : s.present p = exec i s := by
  simp [State.present, h]

/-- What presenting an instruction can do when it answers a next state: commit a new state of the target unit, or raise
an error and leave every unit as it was. -/
theorem present_cases {s t : State} {p : Presented} (h : s.present p = .next t) :
    ∃ u, s.units[s.target]? = some u ∧
      ((∃ i u', p.instr = .ok i ∧ onOneUnit i u = .ok u' ∧ t = (s.setUnit s.target u').withReply .ok) ∨
       (∃ e, t = s.withReply (.error e))) := by
  unfold State.present at h
  cases hp : p.instr with
  | ok i =>
    rw [hp] at h
    obtain ⟨-, u, hu, ⟨u', h1, h2⟩ | ⟨e, -, h2⟩⟩ := exec_cases h
    · exact ⟨u, hu, .inl ⟨i, u', rfl, h1, h2⟩⟩
    · exact ⟨u, hu, .inr ⟨e, h2⟩⟩
  | error e =>
    rw [hp] at h
    obtain ⟨u, hu, ⟨u', h1, -⟩ | ⟨e', -, h2⟩⟩ := onUnit_cases h
    · cases h1
    · exact ⟨u, hu, .inr ⟨e', h2⟩⟩

/-- What presenting an instruction leaves alone: everything but its unit and the reply. -/
theorem present_frame {s t : State} {p : Presented} (h : s.present p = .next t) :
    t.mem = s.mem ∧ t.lifecycle = s.lifecycle ∧ t.agenda = s.agenda ∧ t.target = s.target ∧ t.feed = s.feed ∧
      t.units.length = s.units.length ∧ ∀ j, j ≠ s.target → t.units[j]? = s.units[j]? := by
  obtain ⟨u, -, ⟨i, u', -, -, rfl⟩ | ⟨e, rfl⟩⟩ := present_cases h
  · exact ⟨rfl, rfl, rfl, rfl, rfl, by simp, fun j hj => setUnit_other s s.target u' hj⟩
  · exact ⟨rfl, rfl, rfl, rfl, rfl, rfl, fun _ _ => rfl⟩

theorem mapNext_cases {f : State → State} {o : Outcome} {t : State} (h : mapNext f o = .next t) :
    ∃ s, o = .next s ∧ t = f s := by
  cases o with
  | next s => cases h; exact ⟨s, rfl, rfl⟩
  | fault r => cases h
  | refused r => cases h

/-- What a cycle of a unit's ports can do when it answers a next state (R82). -/
theorem unitCycle_cases {s t : State} {k : Nat} {ins : UnitIn} (h : s.unitCycle k ins = .next t) :
    ∃ u t', s.units[k]? = some u ∧ t = t'.withReply (.unitPorts (u.outputs ins)) ∧
      ((ins.rst = true ∧ t' = (s.withTarget k).setUnit k UnitState.fresh) ∨
       (ins.rst = false ∧ ins.loadValid = true ∧ ins.execValid = false ∧
          t' = (s.withTarget k).setUnit k (u.load ins.loadAddr)) ∨
       (ins.rst = false ∧ ins.loadValid = false ∧ ins.execValid = true ∧
          (s.withTarget k).present (.word ins.execInstr) = .next t') ∨
       (ins.rst = false ∧ ins.loadValid = false ∧ ins.execValid = false ∧ t' = s.withTarget k)) := by
  unfold State.unitCycle at h
  cases hu : s.units[k]? with
  | none => rw [hu] at h; cases h
  | some u =>
    rw [hu] at h
    obtain ⟨t', ht', rfl⟩ := mapNext_cases h
    refine ⟨u, t', rfl, rfl, ?_⟩
    unfold State.edge at ht'
    cases h1 : ins.rst <;> cases h2 : ins.loadValid <;> cases h3 : ins.execValid <;>
      simp_all

/-- What a cycle of a unit's ports leaves alone: everything but the unit, the target and the reply. -/
theorem unitCycle_frame {s t : State} {k : Nat} {ins : UnitIn} (h : s.unitCycle k ins = .next t) :
    t.mem = s.mem ∧ t.lifecycle = s.lifecycle ∧ t.agenda = s.agenda ∧ t.feed = s.feed ∧
      t.units.length = s.units.length ∧ ∀ j, j ≠ k → t.units[j]? = s.units[j]? := by
  obtain ⟨u, t', -, rfl, ⟨-, rfl⟩ | ⟨-, -, -, rfl⟩ | ⟨-, -, -, h⟩ | ⟨-, -, -, rfl⟩⟩ := unitCycle_cases h
  · exact ⟨rfl, rfl, rfl, rfl, by simp, fun j hj => setUnit_other s k _ hj⟩
  · exact ⟨rfl, rfl, rfl, rfl, by simp, fun j hj => setUnit_other s k _ hj⟩
  · obtain ⟨h1, h2, h3, -, h4, h5, h6⟩ := present_frame h
    exact ⟨h1, h2, h3, h4, h5, h6⟩
  · exact ⟨rfl, rfl, rfl, rfl, rfl, fun _ _ => rfl⟩

/-- What the first step of a `loadAndRun` can do when it answers a next state (R90). -/
theorem beginRun_cases {s t : State} {k : Nat} {instructions : List Presented} {start : Word}
    (h : s.beginRun k instructions start = .next t) :
    (s.units = [] ∧ t = s.withReply (.error .noUnitsAvailable)) ∨
    (∃ u, s.units[k]? = some u ∧ t = { s.loadUnit k u start with feed := remaining instructions }) := by
  unfold State.beginRun at h
  split at h
  · cases h; exact .inl ⟨‹_›, rfl⟩
  · cases hu : s.units[k]? with
    | none => rw [hu] at h; cases h
    | some u => rw [hu] at h; cases h; exact .inr ⟨u, rfl, rfl⟩

/-- What a step of a run in progress can do when it answers a next state (R90, R96). -/
theorem feedStep_cases {s t : State} {instructions : List Presented} (h : s.feedStep instructions = .next t) :
    (instructions = [] ∧ t = s.returnRun .ok) ∨
    (∃ p rest t', instructions = p :: rest ∧ s.present p = .next t' ∧ t = State.continueRun rest t') := by
  cases instructions with
  | nil => cases h; exact .inl ⟨rfl, rfl⟩
  | cons p rest =>
    obtain ⟨t', h1, h2⟩ := mapNext_cases h
    exact .inr ⟨p, rest, t', rfl, h1, h2⟩

/-- How the run on the ports goes on: it returns success, or it has the cycles `slots` left. -/
theorem awaitSlots_cases (slots : List PortSlot) (s : State) :
    (slots = [] ∧ s.awaitSlots slots = s.returnRun .ok) ∨
    (slots ≠ [] ∧ s.awaitSlots slots = { s with feed := some (.ports slots) }) := by
  cases slots with
  | nil => exact .inl ⟨rfl, rfl⟩
  | cons slot rest => exact .inr ⟨by simp, rfl⟩

theorem afterSlot_idle {slot : PortSlot} (hw : slot.word = none) (rest : List PortSlot) (s : State) :
    s.afterSlot slot rest = s.awaitSlots rest := by
  simp only [State.afterSlot, hw]

theorem afterSlot_error {slot : PortSlot} {w : InstrWord} {e : ErrorKind} (hw : slot.word = some w)
    (he : (errorOut slot.ins).raised w = some e) (rest : List PortSlot) (s : State) :
    s.afterSlot slot rest = s.returnRun (.error e) := by
  simp only [State.afterSlot, hw, he]

theorem afterSlot_ok {slot : PortSlot} {w : InstrWord} (hw : slot.word = some w)
    (he : (errorOut slot.ins).raised w = none) (rest : List PortSlot) (s : State) :
    s.afterSlot slot rest = if s.targetRunning then s.awaitSlots rest else s.returnRun .ok := by
  simp only [State.afterSlot, hw, he]

/-- What follows a cycle of the run on the ports: the run returns, or it goes on with a running unit or after an idle
cycle (R96). -/
theorem afterSlot_cases (slot : PortSlot) (rest : List PortSlot) (s : State) :
    (∃ r, s.afterSlot slot rest = s.returnRun r) ∨
    (rest ≠ [] ∧ (slot.word = none ∨ s.targetRunning = true) ∧
      s.afterSlot slot rest = { s with feed := some (.ports rest) }) := by
  have await (h : slot.word = none ∨ s.targetRunning = true) (ha : s.afterSlot slot rest = s.awaitSlots rest) :
      (∃ r, s.afterSlot slot rest = s.returnRun r) ∨
      (rest ≠ [] ∧ (slot.word = none ∨ s.targetRunning = true) ∧
        s.afterSlot slot rest = { s with feed := some (.ports rest) }) :=
    ha ▸ (awaitSlots_cases rest s).imp (fun h' => ⟨_, h'.2⟩) (fun h' => ⟨h'.1, h, h'.2⟩)
  cases hw : slot.word with
  | none => exact hw ▸ await (.inl hw) (afterSlot_idle hw rest s)
  | some w =>
    cases he : (errorOut slot.ins).raised w with
    | some e => exact .inl ⟨_, afterSlot_error hw he rest s⟩
    | none =>
      cases hr : s.targetRunning with
      | true => exact hw ▸ hr ▸ await (.inr hr) ((afterSlot_ok hw he rest s).trans (by rw [hr]; rfl))
      | false => exact .inl ⟨_, (afterSlot_ok hw he rest s).trans (by rw [hr]; rfl)⟩

/-- What a run on the ports does between its cycles changes only `feed` and the reply. -/
theorem awaitSlots_frame (slots : List PortSlot) (s : State) :
    (s.awaitSlots slots).units = s.units ∧ (s.awaitSlots slots).mem = s.mem ∧
      (s.awaitSlots slots).lifecycle = s.lifecycle ∧ (s.awaitSlots slots).agenda = s.agenda ∧
      (s.awaitSlots slots).target = s.target := by
  obtain ⟨-, h⟩ | ⟨-, h⟩ := awaitSlots_cases slots s <;> simp [h]

theorem afterSlot_frame (slot : PortSlot) (rest : List PortSlot) (s : State) :
    (s.afterSlot slot rest).units = s.units ∧ (s.afterSlot slot rest).mem = s.mem ∧
      (s.afterSlot slot rest).lifecycle = s.lifecycle ∧ (s.afterSlot slot rest).agenda = s.agenda ∧
      (s.afterSlot slot rest).target = s.target := by
  obtain ⟨r, h⟩ | ⟨-, -, h⟩ := afterSlot_cases slot rest s <;> simp [h]

/-- A cycle of the driver after the load cycle is an idle cycle or an execute cycle of its word (R82, R96). -/
theorem slot_ins (slot : PortSlot) :
    slot.ins.rst = false ∧ slot.ins.loadValid = false ∧ slot.ins.execValid = slot.word.isSome ∧
      ∀ w, slot.word = some w → slot.ins.execInstr = w := by
  unfold PortSlot.ins
  cases h : slot.word with
  | none => exact ⟨rfl, rfl, rfl, fun _ h => nomatch h⟩
  | some w => exact ⟨rfl, rfl, rfl, fun _ h => Option.some.inj h⟩

/-- What the first cycle of a run on the ports can do when it answers a next state (R96). -/
theorem beginPorts_cases {s t : State} {k : Nat} {slots : List PortSlot} {start : Word} {obsIdx : BitVec 4}
    (h : s.beginPorts k slots start obsIdx = .next t) :
    (s.units = [] ∧ t = s.withReply (.error .noUnitsAvailable)) ∨
    (∃ t', s.unitCycle k { loadValid := true, loadAddr := start, obsIdx := obsIdx } = .next t' ∧
      t = t'.awaitSlots slots) := by
  unfold State.beginPorts at h
  split at h
  · cases h; exact .inl ⟨‹_›, rfl⟩
  · exact .inr (mapNext_cases h)

/-- What a cycle of a run on the ports can do when it answers a next state (R96). -/
theorem portStep_cases {s t : State} {slots : List PortSlot} (h : s.portStep slots = .next t) :
    (slots = [] ∧ t = s.returnRun .ok) ∨
    (∃ slot rest t', slots = slot :: rest ∧ s.unitCycle s.target slot.ins = .next t' ∧
      t = t'.afterSlot slot rest) := by
  cases slots with
  | nil => cases h; exact .inl ⟨rfl, rfl⟩
  | cons slot rest =>
    obtain ⟨t', h1, h2⟩ := mapNext_cases h
    exact .inr ⟨slot, rest, t', rfl, h1, h2⟩

/-- What a step of the run in progress can do when it answers a next state. -/
theorem runStep_cases {s t : State} {run : Feed} (h : s.runStep run = .next t) :
    (∃ instructions, run = .direct instructions ∧ s.feedStep instructions = .next t) ∨
    (∃ slots, run = .ports slots ∧ s.portStep slots = .next t) := by
  cases run with
  | direct instructions => exact .inl ⟨instructions, rfl, h⟩
  | ports slots => exact .inr ⟨slots, rfl, h⟩

/-- What a step can do when it answers a next state: a step of the run in progress, an idle step, or the host's next
operation. -/
theorem step_cases {s t : State} (h : step s = .next t) :
    (∃ run, s.feed = some run ∧ s.runStep run = .next t) ∨
    (s.feed = none ∧ s.agenda = [] ∧ t = s.withReply .idle) ∨
    (∃ op rest, s.feed = none ∧ s.agenda = op :: rest ∧ ({ s with agenda := rest } : State).perform op = .next t) := by
  obtain hf | ⟨l, hf⟩ : s.feed = none ∨ ∃ l, s.feed = some l := by cases s.feed <;> simp
  · replace h : s.hostStep = .next t := by simpa [step, hf] using h
    obtain ha | ⟨op, rest, ha⟩ : s.agenda = [] ∨ ∃ op rest, s.agenda = op :: rest := by cases s.agenda <;> simp
    · simp only [State.hostStep, ha] at h
      cases h
      exact .inr (.inl ⟨hf, ha, rfl⟩)
    · simp only [State.hostStep, ha] at h
      exact .inr (.inr ⟨op, rest, hf, ha, h⟩)
  · exact .inl ⟨l, hf, by simpa [step, hf] using h⟩

/-- `start` (R142). -/
theorem startHost_cases {s t : State} (h : s.startHost = .next t) :
    s.lifecycle = .created ∧ t = ({ s with lifecycle := .running } : State).withReply .ok := by
  unfold State.startHost at h
  cases hl : s.lifecycle <;> rw [hl] at h <;> cases h
  exact ⟨rfl, rfl⟩

/-- `stop` (R142). -/
theorem stopHost_cases {s t : State} (h : s.stopHost = .next t) :
    (s.lifecycle = .running ∧ t = ({ s with lifecycle := .stopped } : State).withReply .ok) ∨
    (s.lifecycle ≠ .running ∧
      t = ({ s with lifecycle := .error } : State).withReply (.error .illegalTransition)) := by
  unfold State.stopHost at h
  cases hl : s.lifecycle <;> rw [hl] at h <;> cases h
  · exact .inr ⟨by decide, rfl⟩
  · exact .inl ⟨rfl, rfl⟩
  · exact .inr ⟨by decide, rfl⟩
  · exact .inr ⟨by decide, rfl⟩

end Sys2Proof.Machine
end

