-- ==== Sys2Proof/Laws/PerInstr.lean ====
section
/-! SUPPORT. Per-instruction laws about the instruction as syntax. The family EncodedTag: the word of an instruction
carries its variant's tag (R64), and its reserved field is zero (R65). -/

namespace Sys2Proof.Laws

/-- Bits [63:0] of an encoded word decide its tag and reserved fields. -/
def EncodedTag.Statement (i : Instr) : Prop := tagField (encode i) = i.tag ∧ rsvField (encode i) = 0

/-- An index reaches no bit above its 8-bit field. -/
theorem index_getLsbD_high (i : Nat) {k : Nat} (h : 8 ≤ k) : (BitVec.ofNat 8 i).getLsbD k = false :=
  BitVec.getLsbD_of_ge _ _ h

/-- A tag reaches no bit above the tag field. -/
theorem tag_getLsbD_high {c k : Nat} (hc : c < 2 ^ 8) (h : 8 ≤ k) : (BitVec.ofNat 128 c).getLsbD k = false := by
  simp only [BitVec.getLsbD_ofNat, Bool.and_eq_false_imp]
  exact fun _ => Nat.testBit_lt_two_pow (lt_of_lt_of_le hc (Nat.pow_le_pow_right (by decide) h))

theorem EncodedTag.loadImmediate (reg : Nat) (value : Word) : EncodedTag.Statement (.loadImmediate reg value) := by
  constructor <;> ext k hk
  · simp [tagField, encode, immBits, indexBits, Instr.tag]
    interval_cases k <;> simp
  · simp [rsvField, encode, immBits, indexBits]
    exact ⟨fun _ _ _ => by omega, fun _ _ _ => index_getLsbD_high _ (by omega)⟩

theorem EncodedTag.move (dest src : Nat) : EncodedTag.Statement (.move dest src) := by
  constructor <;> ext k hk
  · simp [tagField, encode, indexBits, Instr.tag]
    interval_cases k <;> simp
  · simp [rsvField, encode, indexBits]
    exact ⟨⟨fun _ _ _ => index_getLsbD_high _ (by omega), fun _ _ _ => index_getLsbD_high _ (by omega)⟩,
      tag_getLsbD_high (by decide) (by omega)⟩

theorem EncodedTag.add (dest src : Nat) : EncodedTag.Statement (.add dest src) := by
  constructor <;> ext k hk
  · simp [tagField, encode, indexBits, Instr.tag]
    interval_cases k <;> simp
  · simp [rsvField, encode, indexBits]
    exact ⟨⟨fun _ _ _ => index_getLsbD_high _ (by omega), fun _ _ _ => index_getLsbD_high _ (by omega)⟩,
      tag_getLsbD_high (by decide) (by omega)⟩

theorem EncodedTag.jump (address : Word) : EncodedTag.Statement (.jump address) := by
  constructor <;> ext k hk
  · simp [tagField, encode, immBits, Instr.tag]
    interval_cases k <;> simp
  · simp [rsvField, encode, immBits]
    exact ⟨fun _ _ _ => by omega, tag_getLsbD_high (by decide) (by omega)⟩

theorem EncodedTag.halt : EncodedTag.Statement .halt := by
  constructor <;> decide

end Sys2Proof.Laws
end

