-- ==== Sys2Proof/Laws/Run.lean ====
section
/-! SUPPORT. The host's `run` of the machine, one step at a time. -/

namespace Sys2Proof.Machine

theorem run_next {n : Nat} {s t : State} (h : step s = .next t) :
    Host.Core.run Sys2Proof.core (n + 1) s = Host.Core.run Sys2Proof.core n t := by
  have gen : ∀ (M : Host.Core) (a b : M.State), M.step a = .next b → M.run (n + 1) a = M.run n b := by
    intro M a b hab
    simp only [Host.Core.run, hab]
  exact gen Sys2Proof.core s t h

theorem run_fault {n : Nat} {s : State} {r : Fault} (h : step s = .fault r) :
    Host.Core.run Sys2Proof.core (n + 1) s = .fault r := by
  have gen : ∀ (M : Host.Core) (a : M.State) (r : M.Fault), M.step a = .fault r → M.run (n + 1) a = .fault r := by
    intro M a r hab
    simp only [Host.Core.run, hab]
  exact gen Sys2Proof.core s r h

theorem run_refused {n : Nat} {s : State} {r : Refusal} (h : step s = .refused r) :
    Host.Core.run Sys2Proof.core (n + 1) s = .refused r := by
  have gen : ∀ (M : Host.Core) (a : M.State) (r : M.Refusal), M.step a = .refused r →
      M.run (n + 1) a = .refused r := by
    intro M a r hab
    simp only [Host.Core.run, hab]
  exact gen Sys2Proof.core s r h

theorem run_one (s : State) : Host.Core.run Sys2Proof.core 1 s = step s := by
  cases h : step s with
  | next t => rw [run_next h]; rfl
  | fault r => rw [run_fault h]; rfl
  | refused r => rw [run_refused h]; rfl

end Sys2Proof.Machine
end

