-- ==== Sys2Proof/Tests/Slice0.lean ====
section
/-! SUPPORT. Tests: the smoke test of WellFormed, words written out from the spec's encoding, one step of each
instruction on the vectors of `95_test_vectors.md`, and for every statement with hypotheses a state that meets them. -/

namespace Sys2Proof.Tests

open Sys2Proof.Machine

/-! ### Helpers -/

/-- A host with the units given, 1024 bytes of memory, and operations to perform. -/
def hostOf (units : List UnitState) (agenda : List HostOp) : State :=
  { State.construct 0 1024 with units := units, agenda := agenda }

/-- A fresh unit with `pc` and `running` set. -/
def unitAt (pc : Word) (running : Bool) : UnitState := { UnitState.fresh with pc := pc, running := running }

/-- The next state of an outcome, if it is one. -/
def nextOf : Outcome → Option State
  | .next t => some t
  | .fault _ => none
  | .refused _ => none

/-- The refusal of an outcome, if it is one. -/
def refusalOf : Outcome → Option Refusal
  | .next _ => none
  | .fault _ => none
  | .refused r => some r

/-- The unit after one instruction presented to a host of this one unit. -/
def unitAfter (u : UnitState) (w : InstrWord) : Option UnitState :=
  (nextOf ((hostOf [u] []).present (.word w))).bind fun t => t.units[0]?

/-- The reply to one instruction presented to a host of this one unit. -/
def replyTo (u : UnitState) (w : InstrWord) : Option Reply :=
  (nextOf ((hostOf [u] []).present (.word w))).map State.reply

/-- The host's first reply and last reply over its agenda's first two steps. -/
def twoReplies (s : State) : Option Reply × Option Reply :=
  ((nextOf (step s)).map State.reply, ((nextOf (step s)).bind fun t => nextOf (step t)).map State.reply)

/-! ### WellFormed: each check refuses an ill-formed term (R61) -/

theorem test_wellFormed_loadImmediate_reg : (Instr.loadImmediate 256 0).wellFormed = false := by decide
theorem test_wellFormed_move_dest : (Instr.move 256 0).wellFormed = false := by decide
theorem test_wellFormed_move_src : (Instr.move 0 256).wellFormed = false := by decide
theorem test_wellFormed_add_dest : (Instr.add 300 0).wellFormed = false := by decide
theorem test_wellFormed_add_src : (Instr.add 0 256).wellFormed = false := by decide
theorem test_wellFormed_boundary : (Instr.move 255 255).wellFormed = true := by decide

/-! ### Decoding: vectors E1 to E17 -/

theorem test_decode_loadImmediate :
    decode 0x000000000000001E0000000000000001 = .ok (.loadImmediate 0 30) ∧
    decode 0xFFFFFFFFFFFFFFFF0000000000000F01 = .ok (.loadImmediate 15 0xFFFFFFFFFFFFFFFF) ∧
    decode 0x0000000000000001000000000000C801 = .ok (.loadImmediate 200 1) := by decide

theorem test_decode_move : decode 0x00000000000000000000000000031402 = .ok (.move 20 3) := by decide

theorem test_decode_add : decode 0x000000000000000000000000000B0A03 = .ok (.add 10 11) := by decide

theorem test_decode_jump : decode 0x00000000000001000000000000000004 = .ok (.jump 0x100) := by decide

theorem test_decode_halt : decode 0x00000000000000000000000000000005 = .ok .halt := by decide

theorem test_decode_illegal_tags :
    decode 0x00000000000000000000000000000000 = .error .noSuchTag ∧
    decode 0x00000000000000000000000000000006 = .error .noSuchTag ∧
    decode 0x000000000000000000000000000000FF = .error .noSuchTag := by decide

theorem test_decode_illegal_fields :
    decode 0x00000000000000000000000000010001 = .error .unusedFieldNotZero ∧
    decode 0x00000000000000010000000000000002 = .error .unusedFieldNotZero ∧
    decode 0x00000000000000000000000000000104 = .error .unusedFieldNotZero ∧
    decode 0x00000000000000010000000000000005 = .error .unusedFieldNotZero := by decide

theorem test_decode_illegal_reserved :
    decode 0x00000000000000000000000001000001 = .error .reservedNotZero ∧
    decode 0x00000000000000008000000000000003 = .error .reservedNotZero ∧
    decode 0xFFFFFFFFFFFFFFFFFFFFFFFFFFFFFFFF = .error .reservedNotZero := by decide

theorem test_encode : encode (.loadImmediate 3 0x1234) = 0x00000000000012340000000000000301 ∧
    encode (.move 2 0) = 0x00000000000000000000000000000202 ∧
    encode (.add 0 1) = 0x00000000000000000000000000010003 ∧
    encode (.jump 0x100) = 0x00000000000001000000000000000004 ∧ encode .halt = 5 := by decide

theorem test_opcodeMap : opcodeMap.map (fun r => r.accepts 0x00000000000000000000000000141402) =
    [false, true, false, false, false] := by decide

theorem test_storedBytes : storedBytes 0x11223344556677880000000000000301 =
    [0x01, 0x03, 0, 0, 0, 0, 0, 0, 0x88, 0x77, 0x66, 0x55, 0x44, 0x33, 0x22, 0x11] := by decide

theorem test_decodeTableWord_rows : [1, 2, 3, 4, 5].map (decodeTableWord 128) =
    [some (.loadImmediate 0 0), some (.move 0 0), some (.add 0 0), some (.jump 0), some .halt] := by decide

/-- The first step after reset runs the placed word (`State.withFetchWord`). -/
theorem test_first_step_after_reset :
    ((nextOf (step (State.reset.withFetchWord 128 0x000000000000001E0000000000000001))).bind fun t => t.units[0]?) =
      some ((UnitState.fresh.setReg 0 30).setPc 1) := by decide

/-! ### Assembler lines (R72) -/

theorem test_assemble_record : assemble (['A', 'd', 'd', openBrace, 'd', 'e', 's', 't', ':', '0', ',', 's', 'r', 'c',
    ':', '1', closeBrace]) = some 0x00000000000000000000000000010003 := by decide

theorem test_assemble_short : assemble ['l', 'i', ' ', 'r', '5', ',', ' ', 'u', '6', '4', ':', ':', 'M', 'A', 'X'] =
    some 0xFFFFFFFFFFFFFFFF0000000000000501 := by decide

theorem test_assemble_hex : assemble ['j', 'm', 'p', ' ', '0', 'x', '1', '0', '0'] =
    some 0x00000000000001000000000000000004 := by decide

/-! ### The instructions: vectors of sections 2.2 to 2.7 -/

/-- LI5: the register is written and `pc` wraps. -/
theorem test_loadImmediate_wraps_pc : unitAfter ((unitAt 0xFFFFFFFFFFFFFFFF false).setReg 1 3)
    0x00000000000000000000000000000101 = some UnitState.fresh := by decide

/-- LI3: register 16 is invalid. -/
theorem test_loadImmediate_invalid : replyTo (unitAt 9 false) 0x00000000000000050000000000001001 =
    some (.error (.invalidRegister ⟨true, 16, false, 0⟩)) := by decide

/-- MV1. -/
theorem test_move : unitAfter ((unitAt 3 false).setReg 0 42) 0x00000000000000000000000000000202 =
    some (((unitAt 4 false).setReg 0 42).setReg 2 42) := by decide

/-- MV3 and MV4: the report tells which field is invalid. -/
theorem test_move_invalid :
    replyTo UnitState.fresh 0x00000000000000000000000000031002 =
      some (.error (.invalidRegister ⟨true, 16, false, 3⟩)) ∧
    replyTo UnitState.fresh 0x00000000000000000000000000100302 =
      some (.error (.invalidRegister ⟨false, 3, true, 16⟩)) := by decide

/-- AD3: the sum is reduced modulo 2^64. -/
theorem test_add_wraps : unitAfter (((unitAt 0 true).setReg 10 0xFFFFFFFFFFFFFFFF).setReg 11 0xFFFFFFFFFFFFFFFF)
    0x000000000000000000000000000B0A03 =
      some (((unitAt 1 true).setReg 10 0xFFFFFFFFFFFFFFFE).setReg 11 0xFFFFFFFFFFFFFFFF) := by decide

/-- AD4: a register added to itself. -/
theorem test_add_self : unitAfter ((unitAt 0 false).setReg 4 0x8000000000000000) 0x00000000000000000000000000040403 =
    some (unitAt 1 false) := by decide

/-- JP1. -/
theorem test_jump : unitAfter (unitAt 7 true) 0x00000000000001000000000000000004 = some (unitAt 0x100 true) := by decide

/-- HT1 and HT2: from either value of the running flag. -/
theorem test_halt : unitAfter (unitAt 4 true) 5 = some (unitAt 4 false) ∧
    unitAfter (unitAt 4 false) 5 = some (unitAt 4 false) := by decide

/-- IL1 and IL2: an illegal word, and that it is reported before an invalid register. -/
theorem test_illegal : unitAfter ((unitAt 3 false).setReg 0 8) 6 = some ((unitAt 3 false).setReg 0 8) ∧
    replyTo UnitState.fresh 0x1006 = some (.error (.illegalInstruction 0x1006)) := by decide

/-! ### Ports, memory and lifecycle: vectors of sections 2.8, 2.9 and 2.11 -/

/-- CY3. -/
theorem test_errorOut_invalid : errorOut { execValid := true, execInstr := 0x00000000000000000000000000031402 } =
    ⟨0b01, true, false, 0x14, 0x03⟩ := by decide

/-- M1 and M2. -/
theorem test_memory :
    twoReplies (hostOf [] [.write 0x100 42, .read 0x100]) = (some .ok, some (.byte 42)) ∧
    twoReplies (hostOf [] [.write 2000 7, .read 2000]) =
      (some (.error (.outOfBounds 2000)), some (.error (.outOfBounds 2000))) := by decide

/-- Writing 0 removes the entry: equal memories are equal data. -/
theorem test_memory_canonical : ((⟨1024, []⟩ : Memory).setByte 5 1).setByte 5 0 = ⟨1024, []⟩ ∧
    ((⟨1024, []⟩ : Memory).setByte 9 1).setByte 5 2 = ⟨1024, [(5, 2), (9, 1)]⟩ := by decide

/-- LC2 and LC4: a second stop latches Error. -/
theorem test_lifecycle : ((nextOf (step { hostOf [] [.stop] with lifecycle := .running })).map State.lifecycle,
    (nextOf (step { hostOf [] [.stop] with lifecycle := .stopped })).map State.lifecycle) =
      (some .stopped, some .error) := by decide

/-- H4: a Jump does not choose the next instruction. -/
theorem test_driver_jump :
    ((nextOf ((hostOf [UnitState.fresh] []).loadAndRun 0 [.decoded (.jump 0), .decoded (.loadImmediate 0 1)] 10)).bind
      fun t => t.units[0]?) = some ((unitAt 1 true).setReg 0 1) := by decide

/-- P3: a run aborts at the first error and keeps what came before. -/
theorem test_driver_abort :
    (nextOf ((hostOf [UnitState.fresh] []).loadAndRun 0 [.word 0x00000000000000070000000000000101,
      .word 0x00000000000000000000000000100203, .word 0x00000000000000050000000000000301] 0x40)).map
      (fun t => (t.units, t.reply)) =
    some ([(unitAt 0x41 true).setReg 1 7], .error (.invalidRegister ⟨false, 2, true, 16⟩)) := by decide

/-- P1 on the ports, with idle cycles between (R96): the same unit as `loadAndRun` leaves, and nothing after the Halt is
issued. The result stands in the step of the last cycle. -/
theorem test_driver_ports :
    (match Host.Core.run Sys2Proof.core 6 (hostOf [UnitState.fresh] [.drivePorts 0 [⟨none, 3⟩,
        ⟨some 0x00000000000000070000000000000101, 0⟩, ⟨none, 0⟩, ⟨none, 1⟩, ⟨some 5, 0⟩, ⟨some 6, 0⟩] 0x40]) with
      | .next t => some (t.units, t.feed, t.reply)
      | _ => none) = some ([(unitAt 0x41 false).setReg 1 7], none, .ok) := by decide

/-- P3 on the ports: the run stops at the first `status` other than 00 and returns its error. -/
theorem test_driver_ports_abort :
    (match Host.Core.run Sys2Proof.core 3 (hostOf [UnitState.fresh] [.drivePorts 0
        [⟨some 0x00000000000000070000000000000101, 0⟩, ⟨some 0x00000000000000000000000000100203, 0⟩, ⟨some 5, 0⟩] 0x40]) with
      | .next t => some (t.units, t.feed, t.reply)
      | _ => none) =
      some ([(unitAt 0x41 true).setReg 1 7], none, .error (.invalidRegister ⟨false, 2, true, 16⟩)) := by decide

/-! ### Witnesses: a state that meets a statement's hypotheses together -/

/-- A unit that no vector has: every kind of state differs from reset. -/
def someUnit : UnitState := ((unitAt 7 true).setReg 1 3).setReg 15 9

/-- A host with two units, a byte in memory and a lifecycle that is not Created. -/
def someHost (agenda : List HostOp) : State :=
  { hostOf [UnitState.fresh, someUnit] agenda with
    mem := ⟨1024, [(0, 1), (1023, 2)]⟩, lifecycle := .running, target := 1 }

theorem witness_ConstructionAndUnitReset :
    (State.construct 2 1024).units[1]? = some UnitState.fresh ∧ (0#64).toNat < 1024 ∧ (1023#64).toNat < 1024 ∧
    (someHost []).units[1]? = some someUnit ∧ ({ rst := true, loadValid := true } : UnitIn).rst = true := by decide

/-- A run in progress and a canonical memory that is not empty: the invariant holds, and the step answers a next state.
Also for StepKeepsUnitCountAndMemorySize. -/
theorem witness_StepKeepsInvariant :
    let s : State := { someHost [] with feed := some (.direct [.decoded (.move 3 1), .decoded .halt]) }
    s.Inv ∧ ∃ t, step s = .next t ∧ t.feed = some (.direct [.decoded .halt]) := by
  refine ⟨by decide, _, rfl, by decide⟩

theorem witness_UnitChangesOnlyWhenDriven :
    (∃ t, step (someHost [.execute 1 (.decoded (.jump 5))]) = .next t ∧ t.units[1]? ≠ (someHost []).units[1]?) ∧
    (∃ t, step (someHost [.loadAndRun 0 [] 5]) = .next t ∧ t.units[0]? ≠ (someHost []).units[0]?) ∧
    (∃ t, step (someHost [.unitCycle 1 { rst := true }]) = .next t ∧ t.units[1]? ≠ (someHost []).units[1]?) :=
  ⟨⟨_, rfl, by decide⟩, ⟨_, rfl, by decide⟩, ⟨_, rfl, by decide⟩⟩

theorem witness_RegisterChangesOnlyByItsInstruction :
    ∃ t v, step (someHost [.execute 1 (.decoded (.add 15 1))]) = .next t ∧
      (someHost [.execute 1 (.decoded (.add 15 1))]).units[1]? = some someUnit ∧ t.units[1]? = some v ∧
      v.reg 15 ≠ someUnit.reg 15 :=
  ⟨_, _, rfl, by decide, rfl, by decide⟩

theorem witness_RunningChangesOnlyByLoaderHaltReset :
    (∃ t v, step (someHost [.loadAndRun 0 [.decoded .halt] 5]) = .next t ∧ t.units[0]? = some v ∧
      UnitState.fresh.running = false ∧ v.running = true) ∧
    (∃ t v, step (someHost [.execute 1 (.decoded .halt)]) = .next t ∧ t.units[1]? = some v ∧
      someUnit.running = true ∧ v.running = false) ∧
    (∃ t v, step (someHost [.unitCycle 1 { rst := true }]) = .next t ∧ t.units[1]? = some v ∧
      someUnit.running = true ∧ v.running = false) :=
  ⟨⟨_, _, rfl, rfl, by decide, by decide⟩, ⟨_, _, rfl, rfl, by decide, by decide⟩, ⟨_, _, rfl, rfl, by decide, by decide⟩⟩

theorem witness_MemoryChangesOnlyByHostWrite :
    (someHost [.write 1023 7]).Inv ∧ ∃ t, step (someHost [.write 1023 7]) = .next t ∧
      (nextOf (step (someHost [.write 1023 7]))).map (fun t => t.mem.byteAt 1023) = some 7 ∧
      t.mem.byteAt 1023 ≠ (someHost []).mem.byteAt 1023 :=
  ⟨by decide, _, rfl, by decide, by decide⟩

theorem witness_LifecycleChangesOnlyByStartAndStop :
    (∃ t, step (someHost [.stop]) = .next t ∧ t.lifecycle ≠ (someHost [.stop]).lifecycle) ∧
    (∃ t, step (hostOf [] [.start]) = .next t ∧ t.lifecycle ≠ (hostOf [] [.start]).lifecycle) ∧
    (∃ t, step (hostOf [] [.stop]) = .next t ∧ t.lifecycle ≠ (hostOf [] [.stop]).lifecycle) :=
  ⟨⟨_, rfl, by decide⟩, ⟨_, rfl, by decide⟩, ⟨_, rfl, by decide⟩⟩

/-- Both clauses at their boundaries: 0 and 1023 inside, 1024 outside. Also for WriteStoresOneByteOrOutOfBounds. -/
theorem witness_ReadReturnsByteOrOutOfBounds :
    (someHost [.read 0]).feed = none ∧ (someHost [.read 0]).agenda = .read 0 :: [] ∧ (someHost []).mem.wf = true ∧
    (0#64).toNat < (someHost []).mem.size ∧ (1023#64).toNat < (someHost []).mem.size ∧
    (someHost []).mem.size ≤ (1024#64).toNat := by decide

theorem witness_CanonicalMemoryIsUnique :
    (someHost []).mem.wf = true ∧ (someHost []).mem.size ≤ 2 ^ 64 ∧
    ∀ a : Word, (someHost []).mem.read a = (⟨1024, [(0, 1), (1023, 2)]⟩ : Memory).read a :=
  ⟨by decide, by decide, fun _ => rfl⟩

theorem witness_MemoryPortFollowsItsTable :
    (someHost [.memCycle { memOp := 0b10, memAddr := 1023 }]).feed = none ∧
    (someHost [.memCycle {}]).agenda = .memCycle {} :: [] ∧
    (∃ b, (someHost []).mem.read 1023 = .ok b) ∧ (∃ m, (someHost []).mem.write 1023 7 = .ok m) ∧
    (someHost []).mem.size ≤ (1024#64).toNat ∧
    [0b00#2, 0b01#2, 0b10#2, 0b11#2].map (fun op => ({ memOp := op } : MemIn).memOp) = [0, 1, 2, 3] :=
  ⟨rfl, rfl, ⟨_, rfl⟩, ⟨_, rfl⟩, by decide, by decide⟩

/-- Also for AssemblyLinesAssemble: a well-formed instruction, at the largest index. -/
theorem witness_DecodeInvertsEncode : (Instr.move 255 16).wellFormed = true ∧
    decode 0x0000000000000000000000000010FF02 = .ok (.move 255 16) := by decide

theorem witness_EncodeIsItsFormula : (255 : Nat) < 256 ∧ (0 : Nat) < 256 := by decide

/-- Legal words, illegal words of each tag, and the unit: the first two clauses of the five instructions' rules. -/
theorem witness_instruction_words :
    (Instr.loadImmediate 0 0).row.accepts 0xFFFFFFFFFFFFFFFF000000000000FF01 = true ∧
    tagField 0x10001 = 0x01 ∧ (Instr.loadImmediate 0 0).row.accepts 0x10001 = false ∧
    (Instr.move 0 0).row.accepts 0xFF1002 = true ∧
    tagField 0x10000000000000002 = 0x02 ∧ (Instr.move 0 0).row.accepts 0x10000000000000002 = false ∧
    (Instr.add 0 0).row.accepts 0xFFFF03 = true ∧
    tagField 0x1000003 = 0x03 ∧ (Instr.add 0 0).row.accepts 0x1000003 = false ∧
    (Instr.jump 0).row.accepts 0xFFFFFFFFFFFFFFFF0000000000000004 = true ∧
    tagField 0x104 = 0x04 ∧ (Instr.jump 0).row.accepts 0x104 = false ∧
    tagField 0x8000000000000005 = 0x05 ∧ (0x8000000000000005 : InstrWord) ≠ 0x05 ∧
    (someHost []).units[(someHost []).target]? = some someUnit := by decide

/-- LoadImmediateFollowsItsRule: a unit, and an index at each end of 16 to 255. -/
theorem witness_LoadImmediateFollowsItsRule :
    (someHost []).units[(someHost []).target]? = some someUnit ∧ 16 ≤ 16 ∧ 16 < 256 ∧ 16 ≤ 255 ∧ 255 < 256 := by decide

/-- MoveFollowsItsRule and AddFollowsItsRule: a unit, and index pairs with one or both invalid. -/
theorem witness_MoveAndAddFollowTheirRules :
    (someHost []).units[(someHost []).target]? = some someUnit ∧
    ∀ p ∈ [(16, 15), (15, 16), (255, 255)], p.1 < 256 ∧ p.2 < 256 ∧ (16 ≤ p.1 ∨ 16 ≤ p.2) := by decide

/-- JumpFollowsItsRule, HaltFollowsItsRule and AddWritesTheSameSumIntoEitherOperand: the unit exists. -/
theorem witness_unit_exists : (someHost []).units[(someHost []).target]? = some someUnit ∧
    (1 : Fin Config.numRegs) ≠ 15 := by decide

theorem witness_MoveCopiesByValue :
    ∃ t t' v v', exec (.move 2 15) (someHost []) = .next t ∧ destination (.loadImmediate 15 4) = some 15 ∧
      exec (.loadImmediate 15 4) t = .next t' ∧ t.units[t.target]? = some v ∧ t'.units[t'.target]? = some v' ∧
      v'.reg 2 = 9 ∧ v'.reg 15 = 4 :=
  ⟨_, _, _, _, rfl, rfl, rfl, rfl, rfl, by decide, by decide⟩

theorem witness_PcIncrementWraps :
    ∃ t v, (hostOf [unitAt 0xFFFFFFFFFFFFFFFF true] []).units[0]? = some (unitAt 0xFFFFFFFFFFFFFFFF true) ∧
      (unitAt 0xFFFFFFFFFFFFFFFF true).pc.toNat = 2 ^ 64 - 1 ∧ (destination (.add 2 2)).isSome = true ∧
      exec (.add 2 2) (hostOf [unitAt 0xFFFFFFFFFFFFFFFF true] []) = .next t ∧ t.reply = .ok ∧ t.units[0]? = some v :=
  ⟨_, _, by decide, by decide, by decide, rfl, by decide, rfl⟩

theorem witness_InvalidRegisterReportNamesEveryBadIndex :
    (Instr.move 16 3).wellFormed = true ∧ (someHost []).units[(someHost []).target]? = some someUnit ∧
    ∃ t, exec (.move 16 3) (someHost []) = .next t ∧ t.reply = .error (.invalidRegister ⟨true, 16, false, 3⟩) :=
  ⟨by decide, by decide, _, rfl, by decide⟩

theorem witness_IllegalWordRaisesIllegalInstruction :
    decode 0x1006 = .error .noSuchTag ∧ (someHost []).units[(someHost []).target]? = some someUnit ∧
    ({ execValid := true, execInstr := 0x1006 } : UnitIn).rst = false := by decide

theorem witness_InstructionAppliesFullyOrNotAtAll :
    (∃ t, (someHost []).present (.word 0x10003) = .next t ∧ t.reply = .ok) ∧
    (∃ t, (someHost []).present (.word 0x100003) = .next t ∧
      t.reply = .error (.invalidRegister ⟨false, 0, true, 16⟩)) :=
  ⟨⟨_, rfl, by decide⟩, ⟨_, rfl, by decide⟩⟩

theorem witness_UnencodableIndexIsRefused :
    (∃ n ∈ registerIndices (.move 3 256), 256 ≤ n) ∧
    refusalOf (exec (.move 3 256) (someHost [])) = some .indexNotEncodable := by decide

theorem witness_MissingUnitIsRefused :
    ({ someHost [] with target := 2 } : State).units.length ≤ 2 ∧ (hostOf [] []).units.length ≤ 0 ∧
    (∀ i, (Presented.word 0x06).instr = .ok i → i.wellFormed = true) ∧
    (∀ i, (Presented.decoded .halt).instr = .ok i → i.wellFormed = true) := by
  refine ⟨by decide, by decide, fun i h => ?_, fun i h => ?_⟩
  · exact absurd (show (Except.error (.illegalInstruction 0x06) : Except ErrorKind Instr) = .ok i from h) (by simp)
  · cases h; rfl

/-- The two hosts differ in the other unit, the memory and the lifecycle. -/
theorem witness_ExecuteReadsOnlyItsUnit :
    (someHost []).units[(someHost []).target]? =
      (hostOf [someUnit] []).units[(hostOf [someUnit] []).target]? ∧ someHost [] ≠ hostOf [someUnit] [] := by decide

/-- Also for ObservationShowsTheCommittedState and LoaderSetsPcAndRunningOnly: each row's inputs. -/
theorem witness_UnitCycleFollowsItsTable :
    (someHost []).units[1]? = some someUnit ∧ (someHost [.unitCycle 1 {}]).agenda = .unitCycle 1 {} :: [] ∧
    refusalOf ((someHost []).unitCycle 1 { loadValid := true, execValid := true }) = some .loadWithExecute ∧
    [({ rst := true } : UnitIn), {}, { loadValid := true, loadAddr := 0x40 }, { execValid := true }].map
      (fun ins => (nextOf ((someHost []).unitCycle 1 ins)).isSome) = [true, true, true, true] := by decide

theorem witness_ErrorReportDescribesTheExecution :
    (someHost []).units[(someHost []).target]? = some someUnit ∧
    ∃ t, (someHost []).present (.word 0x31402) = .next t ∧
      (errorOut { execValid := true, execInstr := 0x31402 }).status = 0b01 :=
  ⟨by decide, _, rfl, by decide⟩

theorem witness_NoUnitsRaisesNoUnitsAvailable :
    (hostOf [] [.loadAndRun 0 [.decoded .halt] 0]).units = [] ∧
    (hostOf [] [.loadAndRun 0 [.decoded .halt] 0]).feed = none := by decide

theorem witness_UnitIndexOutOfRangeIsRefused :
    0 < (someHost [.loadAndRun 2 [.decoded .halt] 0]).units.length ∧
    (someHost [.loadAndRun 2 [.decoded .halt] 0]).units.length ≤ 2 ∧
    (someHost [.loadAndRun 2 [.decoded .halt] 0]).feed = none := by decide

/-- Sequences that end at their end, at a Halt, and at an error; also for DriverRefinesLoadAndRun,
LoadAndRunTouchesOneUnit, RunWithoutHaltLeavesUnitRunning, PortDriverRefinesLoadAndRun. -/
theorem witness_PortsRealizeLoadAndRun :
    (someHost []).feed = none ∧
    (∃ t v, (someHost []).loadAndRun 0 ([0x000000000000001E0000000000000001, 0x202].map Presented.word) 9 = .next t ∧
      t.reply = .ok ∧ t.units[0]? = some v ∧ v.running = true) ∧
    (∃ t v, (someHost []).loadAndRun 0 ([0x202, 5, 6].map Presented.word) 9 = .next t ∧
      t.units[0]? = some v ∧ v.running = false) ∧
    (∃ t v, (someHost []).loadAndRun 0 ([0x202, 6, 5].map Presented.word) 9 = .next t ∧
      t.units[0]? = some v ∧ t.reply = .error (.illegalInstruction 6)) :=
  ⟨by decide, ⟨_, _, rfl, by decide, rfl, by decide⟩, ⟨_, _, rfl, rfl, by decide⟩, ⟨_, _, rfl, rfl, by decide⟩⟩

/-- A Jump presented as a word, at the head and after a part of the sequence that leaves the unit running. -/
theorem witness_JumpDoesNotRedirectTheFeed :
    (Presented.word 0x00000000000001000000000000000004).instr = .ok (.jump 0x100) ∧
    ∃ t v, (someHost []).loadAndRun 0 [.word 0x202] 9 = .next t ∧ t.reply = .ok ∧ t.units[0]? = some v ∧
      v.running = true :=
  ⟨rfl, _, _, rfl, by decide, rfl, by decide⟩

/-- A run on the ports whose next cycle is idle, executes with an error, executes with success, or is a Halt. -/
theorem witness_PortDriverStopsAtErrorOrHalt :
    let s (p : PortSlot) : State := { someHost [] with feed := some (.ports [p, ⟨some 5, 0⟩]) }
    (s ⟨none, 1⟩).feed = some (.ports (⟨none, 1⟩ :: [⟨some 5, 0⟩])) ∧
    (s ⟨none, 1⟩).units[(s ⟨none, 1⟩).target]? = some someUnit ∧
    (errorOut (⟨some 6, 0⟩ : PortSlot).ins).status = 0b10 ∧ (errorOut (⟨some 0x31402, 0⟩ : PortSlot).ins).status = 0b01 ∧
    (errorOut (⟨some 0x202, 0⟩ : PortSlot).ins).status = 0b00 ∧ (errorOut (⟨some 5, 0⟩ : PortSlot).ins).status = 0b00 := by
  decide

theorem witness_LifecycleIsIndependentOfUnits :
    (∃ t, (hostOf [someUnit] []).startHost = .next t) ∧ (∃ t, (someHost []).stopHost = .next t) :=
  ⟨⟨_, rfl⟩, ⟨_, rfl⟩⟩

theorem witness_RunWithoutHaltLeavesUnitRunning :
    (∀ p ∈ [Presented.word 0x202, .word 0x06], p.instr ≠ .ok .halt) ∧
    ∃ t, (someHost []).loadAndRun 0 [.word 0x202, .word 0x06] 9 = .next t ∧ t.reply ≠ .error .noUnitsAvailable := by
  refine ⟨?_, _, rfl, by decide⟩
  intro p hp
  rcases List.mem_cons.mp hp with rfl | hp
  · exact fun h => absurd (show (Except.ok (.move 2 0) : Except ErrorKind Instr) = .ok .halt from h) (by simp)
  · rcases List.mem_cons.mp hp with rfl | hp
    · exact fun h => absurd (show (Except.error (.illegalInstruction 0x06) : Except ErrorKind Instr) = .ok .halt from h)
        (by simp)
    · cases hp

theorem witness_NothingRunsAfterHalt : (Presented.word 0x05).instr = .ok .halt := rfl

theorem witness_RunAbortsAtTheFirstError :
    ∃ t v, (someHost []).loadAndRun 0 [.word 0x202] 9 = .next t ∧ t.reply = .ok ∧ t.units[0]? = some v ∧
      v.running = true ∧
      t.present (.word 0x100203) = .next (t.withReply (.error (.invalidRegister ⟨false, 2, true, 16⟩))) :=
  ⟨_, _, rfl, by decide, rfl, by decide, rfl⟩

theorem witness_LifecycleFollowsItsTransitions :
    (hostOf [] [.start]).feed = none ∧ (hostOf [] [.start]).agenda = .start :: [] ∧
    (hostOf [] [.stop]).agenda = .stop :: [] ∧
    (hostOf [] []).lifecycle = .created ∧ (someHost []).lifecycle = .running ∧ (someHost []).lifecycle ≠ .created ∧
    (hostOf [] []).lifecycle ≠ .running := by decide

theorem witness_StepRunsTheDecodedInstruction :
    decode 0x10003 = .ok (.add 0 1) ∧ (someHost [.execute 1 (.word 0x10003)]).feed = none ∧
    ({ someHost [] with feed := some (.direct [.word 0x10003]) } : State).feed = some (.direct (.word 0x10003 :: [])) ∧
    ({ someHost [] with feed := some (.ports [⟨some 0x10003, 1⟩]) } : State).units[(someHost []).target]? = some someUnit ∧
    (someHost [.unitCycle 1 { execValid := true, execInstr := 0x10003 }]).units[1]? = some someUnit := by decide

/-- Also for HostPerformsItsAgendaInOrder: a host between runs, and one in a run. -/
theorem witness_PlacedWordIsPresentedNext :
    (someHost []).feed = none ∧ (someHost []).agenda = [] ∧ (someHost [.start]).agenda = .start :: [] ∧
    ({ someHost [] with feed := some (.direct [.decoded .halt]) } : State).feed = some (.direct [.decoded .halt]) ∧
    ({ someHost [] with feed := some (.ports [⟨none, 1⟩]) } : State).feed = some (.ports [⟨none, 1⟩]) := by decide

end Sys2Proof.Tests
end

section
/-! PROOFS. What a register-writing instruction does to the unit it runs on, and the statements about a unit's registers
and program counter that follow from it. -/

namespace Sys2Proof.Machine

/-! ### What an instruction's operands and meaning can answer -/

theorem withRegister_ok_iff {reg : Nat} {f : Fin Config.numRegs → UnitState} {v : UnitState} :
    withRegister reg f = .ok v ↔ ∃ h : reg < Config.numRegs, v = f ⟨reg, h⟩ := by
  rcases Nat.lt_or_ge reg Config.numRegs with hr | hr
  · simp [withRegister_valid hr, hr, eq_comm]
  · simp [withRegister_invalid hr, Nat.not_lt.mpr hr]

theorem withRegisters_ok_iff {dest src : Nat} {f : Fin Config.numRegs → Fin Config.numRegs → UnitState}
    {v : UnitState} : withRegisters dest src f = .ok v ↔
      ∃ (hd : dest < Config.numRegs) (hs : src < Config.numRegs), v = f ⟨dest, hd⟩ ⟨src, hs⟩ := by
  by_cases h : dest < Config.numRegs ∧ src < Config.numRegs
  · obtain ⟨hd, hs⟩ := h
    simp [withRegisters_valid hd hs, hd, hs, eq_comm]
  · have hbad : Config.numRegs ≤ dest ∨ Config.numRegs ≤ src := by omega
    simp only [withRegisters_invalid hbad, reduceCtorEq, false_iff]
    exact fun ⟨hd, hs, _⟩ => h ⟨hd, hs⟩

section
variable {reg dest src : Nat} {value : Word} {u v : UnitState}

/-- R100 on one unit, as an equivalence. -/
theorem onOneUnit_loadImmediate_ok_iff : onOneUnit (.loadImmediate reg value) u = .ok v ↔
    ∃ h : reg < Config.numRegs, v = (u.setReg ⟨reg, h⟩ value).advancePc := by
  rw [onOneUnit, loadImmediate, withRegister_ok_iff]

/-- R101 on one unit, as an equivalence. -/
theorem onOneUnit_move_ok_iff : onOneUnit (.move dest src) u = .ok v ↔
    ∃ (hd : dest < Config.numRegs) (hs : src < Config.numRegs),
      v = (u.setReg ⟨dest, hd⟩ (u.reg ⟨src, hs⟩)).advancePc := by
  rw [onOneUnit, move, withRegisters_ok_iff]

/-- R110 on one unit, as an equivalence. -/
theorem onOneUnit_add_ok_iff : onOneUnit (.add dest src) u = .ok v ↔
    ∃ (hd : dest < Config.numRegs) (hs : src < Config.numRegs),
      v = (u.setReg ⟨dest, hd⟩ (alu (u.reg ⟨dest, hd⟩) (u.reg ⟨src, hs⟩))).advancePc := by
  rw [onOneUnit, add, withRegisters_ok_iff]

end

/-- An instruction with a destination writes one value into it and increments `pc` (R29, R100, R101, R110). -/
theorem onOneUnit_writes_destination {i : Instr} {u v : UnitState} {n : Nat} (hd : destination i = some n)
    (h : onOneUnit i u = .ok v) :
    ∃ (hn : n < Config.numRegs) (value : Word), v = (u.setReg ⟨n, hn⟩ value).advancePc := by
  cases i with
  | loadImmediate reg value =>
    obtain rfl := Option.some.inj hd
    obtain ⟨hr, rfl⟩ := onOneUnit_loadImmediate_ok_iff.mp h
    exact ⟨hr, value, rfl⟩
  | move dest src =>
    obtain rfl := Option.some.inj hd
    obtain ⟨hr, hs, rfl⟩ := onOneUnit_move_ok_iff.mp h
    exact ⟨hr, u.reg ⟨src, hs⟩, rfl⟩
  | add dest src =>
    obtain rfl := Option.some.inj hd
    obtain ⟨hr, hs, rfl⟩ := onOneUnit_add_ok_iff.mp h
    exact ⟨hr, alu (u.reg ⟨dest, hr⟩) (u.reg ⟨src, hs⟩), rfl⟩
  | jump address => cases hd
  | halt => cases hd

/-! ### What `exec` does to the unit whose port is driven -/

theorem exec_target {i : Instr} {s t : State} (h : exec i s = .next t) : t.target = s.target := by
  obtain ⟨-, _, -, ⟨_, -, rfl⟩ | ⟨_, -, rfl⟩⟩ := exec_cases h <;> rfl

/-- The driven unit after `exec`: the instruction's result on it with the reply `ok`, or, with an error, the unit as it
was (R86). -/
theorem exec_unit_cases {i : Instr} {s t : State} {u v : UnitState} (h : exec i s = .next t)
    (hu : s.units[s.target]? = some u) (hv : t.units[s.target]? = some v) :
    (onOneUnit i u = .ok v ∧ t.reply = .ok) ∨ (∃ e, onOneUnit i u = .error e ∧ t.reply = .error e ∧ v = u) := by
  obtain ⟨-, w, hw, hres⟩ := exec_cases h
  obtain rfl : u = w := Option.some.inj (hu.symm.trans hw)
  rcases hres with ⟨u', hok, rfl⟩ | ⟨e, herr, rfl⟩
  · obtain rfl : u' = v := Option.some.inj ((setUnit_same s s.target u' hu).symm.trans hv)
    exact .inl ⟨hok, rfl⟩
  · exact .inr ⟨e, herr, rfl, Option.some.inj (hv.symm.trans hu)⟩

/-- A successful instruction with a destination increments `pc` (R29). -/
theorem exec_increments_pc {i : Instr} {s t : State} {u v : UnitState} (hd : (destination i).isSome = true)
    (h : exec i s = .next t) (hr : t.reply = .ok) (hu : s.units[s.target]? = some u)
    (hv : t.units[s.target]? = some v) : v.pc = alu u.pc 1#64 := by
  obtain ⟨n, hn⟩ := Option.isSome_iff_exists.mp hd
  rcases exec_unit_cases h hu hv with ⟨hok, -⟩ | ⟨e, -, herr, -⟩
  · obtain ⟨_, value, rfl⟩ := onOneUnit_writes_destination hn hok
    simp
  · simp [hr] at herr

/-- Whether it succeeds or raises an error, an instruction keeps every register but its destination (R23). -/
theorem exec_keeps_other_register {i : Instr} {s t : State} {u v : UnitState} {n : Nat} {j : Fin Config.numRegs}
    (hd : destination i = some n) (hj : j.val ≠ n) (h : exec i s = .next t) (hu : s.units[s.target]? = some u)
    (hv : t.units[s.target]? = some v) : v.reg j = u.reg j := by
  rcases exec_unit_cases h hu hv with ⟨hok, -⟩ | ⟨_, -, -, rfl⟩
  · obtain ⟨hn, value, rfl⟩ := onOneUnit_writes_destination hd hok
    rw [advancePc_reg, setReg_reg_other _ _ _ _ (Fin.ne_of_val_ne hj)]
  · rfl

/-- Move between registers that exist copies the source's value into the destination (R101). -/
theorem exec_move_unit {dest src : Fin Config.numRegs} {s t : State} {u v : UnitState}
    (h : exec (.move dest.val src.val) s = .next t) (hu : s.units[s.target]? = some u)
    (hv : t.units[s.target]? = some v) : v = (u.setReg dest (u.reg src)).advancePc := by
  have hmove : onOneUnit (.move dest.val src.val) u = .ok (u.setReg dest (u.reg src)).advancePc :=
    onOneUnit_move_ok_iff.mpr ⟨dest.isLt, src.isLt, rfl⟩
  rcases exec_unit_cases h hu hv with ⟨hok, -⟩ | ⟨e, herr, -⟩
  · exact Except.ok.inj (hok.symm.trans hmove)
  · cases herr.symm.trans hmove

/-- The incrementer at its greatest operand (R29, decision D7). -/
theorem alu_one_of_max {a : Word} (h : a.toNat = 2 ^ 64 - 1) : alu a 1#64 = 0 := by
  apply BitVec.eq_of_toNat_eq
  rw [alu_toNat, h]
  rfl

/-! ### The statements -/

/-- Settles O26: the copy holds the source's old value, and the next instruction, which writes only the source, keeps
it. -/
theorem moveCopiesByValue : Obligations.MoveCopiesByValue := by
  intro s t t' u v v' dest src i hu hmove hdest hne hi hv hv'
  rw [exec_target hmove] at hv
  obtain rfl := exec_move_unit hmove hu hv
  have hcopy : v'.reg dest = (u.setReg dest (u.reg src)).advancePc.reg dest :=
    exec_keeps_other_register hdest (Fin.val_ne_of_ne hne.symm) hi (exec_target hmove ▸ hv) (exec_target hi ▸ hv')
  constructor
  · simp [setReg_reg_other _ _ _ _ hne]
  · simpa using hcopy

/-- Settles O28: a successful instruction with a destination increments `pc`, and the incrementer wraps at its greatest
operand. -/
theorem pcIncrementWraps : Obligations.PcIncrementWraps := by
  intro s t u v i hu hpc hdest hi hreply hv
  calc v.pc = alu u.pc 1#64 := exec_increments_pc hdest hi hreply hu hv
    _ = 0 := alu_one_of_max hpc

end Sys2Proof.Machine
end

section
/-! PROOFS. What a byte stored in the canonical memory region does to every address, and the statements about the host's
`read` and `write` and about the memory port that follow from it. -/

namespace Sys2Proof.Machine

/-! ### The host takes its next operation -/

section
variable (s : State) (rest : List HostOp)

@[simp] theorem withAgenda_units : (s.withAgenda rest).units = s.units := rfl
@[simp] theorem withAgenda_mem : (s.withAgenda rest).mem = s.mem := rfl
@[simp] theorem withAgenda_lifecycle : (s.withAgenda rest).lifecycle = s.lifecycle := rfl
@[simp] theorem withAgenda_agenda : (s.withAgenda rest).agenda = rest := rfl
@[simp] theorem withAgenda_target : (s.withAgenda rest).target = s.target := rfl
@[simp] theorem withAgenda_feed : (s.withAgenda rest).feed = s.feed := rfl
@[simp] theorem withAgenda_reply : (s.withAgenda rest).reply = s.reply := rfl

end

/-- Between runs a step performs the oldest operation of the agenda (R51). -/
theorem step_eq_perform {s : State} {op : HostOp} {rest : List HostOp} (hf : s.feed = none)
    (ha : s.agenda = op :: rest) : step s = (s.withAgenda rest).perform op := by
  have hstep : step s = s.hostStep := by rw [step, hf]
  rw [hstep, State.hostStep, ha]
  rfl

/-! ### A byte put into canonical cells -/

/-- An address below every listed one reads 0. -/
theorem cellByte_of_lt {size lo a : Nat} (ha : a < lo) :
    ∀ {cells : List Host.Cell}, cellsWf size lo cells = true → cellByte cells a = 0#8
  | [], _ => rfl
  | (k, v) :: rest, h => by
    simp only [cellsWf, Bool.and_eq_true, decide_eq_true_eq] at h
    obtain ⟨⟨⟨hlo, -⟩, -⟩, hrest⟩ := h
    have hne : k ≠ a := by omega
    simpa [cellByte, hne] using cellByte_of_lt (show a < k + 1 by omega) hrest

/-- The byte at the address it is put at: that the byte 0 reads back too needs the order of the cells, since it is
stored by listing nothing. -/
theorem cellByte_putCell_same {size a : Nat} {b : Byte} :
    ∀ {cells : List Host.Cell} {lo : Nat}, cellsWf size lo cells = true → cellByte (putCell cells a b) a = b
  | [], _, _ => by by_cases hb : b = 0#8 <;> simp [putCell, cellByte, hb]
  | (k, v) :: rest, _, h => by
    simp only [cellsWf, Bool.and_eq_true, decide_eq_true_eq] at h
    obtain ⟨-, hrest⟩ := h
    rcases lt_trichotomy a k with hlt | rfl | hgt
    · have hzero : cellByte rest a = 0#8 := cellByte_of_lt (Nat.lt_succ_of_lt hlt) hrest
      by_cases hb : b = 0#8 <;> simp [putCell, cellByte, hlt, hlt.ne', hb, hzero]
    · have hzero : cellByte rest a = 0#8 := cellByte_of_lt (Nat.lt_succ_self a) hrest
      by_cases hb : b = 0#8 <;> simp [putCell, cellByte, hb, hzero]
    · simpa [putCell, cellByte, hgt.not_gt, hgt.ne, hgt.ne'] using cellByte_putCell_same hrest

/-- Every other address holds what it held. -/
theorem cellByte_putCell_other {a a' : Nat} (b : Byte) (hne : a' ≠ a) :
    ∀ cells : List Host.Cell, cellByte (putCell cells a b) a' = cellByte cells a'
  | [] => by by_cases hb : b = 0#8 <;> simp [putCell, cellByte, hb, hne.symm]
  | (k, v) :: rest => by
    rcases lt_trichotomy a k with hlt | rfl | hgt
    · by_cases hb : b = 0#8 <;> simp [putCell, cellByte, hlt, hb, hne.symm]
    · by_cases hb : b = 0#8 <;> simp [putCell, cellByte, hb, hne.symm]
    · simp [putCell, cellByte, hgt.not_gt, hgt.ne', cellByte_putCell_other b hne rest]

/-! ### The region's two operations -/

section
variable {m m' : Memory} {a a' : Word} {b : Byte}

theorem inBounds_of_lt (h : a.toNat < m.size) : m.inBounds a = true := decide_eq_true h

theorem inBounds_of_ge (h : m.size ≤ a.toNat) : m.inBounds a = false := decide_eq_false h.not_gt

theorem read_of_lt (h : a.toNat < m.size) : m.read a = .ok (m.byteAt a) := by
  simp [Memory.read, inBounds_of_lt h]

theorem read_of_ge (h : m.size ≤ a.toNat) : m.read a = .error (.outOfBounds a) := by
  simp [Memory.read, inBounds_of_ge h]

theorem write_of_lt (h : a.toNat < m.size) : m.write a b = .ok (m.setByte a b) := by
  simp [Memory.write, inBounds_of_lt h]

theorem write_of_ge (h : m.size ≤ a.toNat) : m.write a b = .error (.outOfBounds a) := by
  simp [Memory.write, inBounds_of_ge h]

/-- R43's success, as an equivalence. -/
theorem read_ok_iff : m.read a = .ok b ↔ m.inBounds a = true ∧ b = m.byteAt a := by
  cases h : m.inBounds a <;> simp [Memory.read, h, eq_comm]

/-- R44's success, as an equivalence. -/
theorem write_ok_iff : m.write a b = .ok m' ↔ m.inBounds a = true ∧ m' = m.setByte a b := by
  cases h : m.inBounds a <;> simp [Memory.write, h, eq_comm]

@[simp] theorem setByte_size : (m.setByte a b).size = m.size := rfl

@[simp] theorem setByte_inBounds : (m.setByte a b).inBounds a' = m.inBounds a' := rfl

theorem setByte_byteAt_same (hm : m.wf = true) : (m.setByte a b).byteAt a = b := cellByte_putCell_same hm

theorem setByte_byteAt_other (hne : a' ≠ a) : (m.setByte a b).byteAt a' = m.byteAt a' :=
  cellByte_putCell_other b (BitVec.toNat_ne_iff_ne.mpr hne) m.cells

/-- A stored byte reads back (R43, R44). -/
theorem setByte_read_same (hm : m.wf = true) (h : a.toNat < m.size) : (m.setByte a b).read a = .ok b := by
  rw [read_of_lt (by simpa using h), setByte_byteAt_same hm]

/-- Every other address reads as before the store, in bounds or not (R44). -/
theorem setByte_read_other (hne : a' ≠ a) : (m.setByte a b).read a' = m.read a' := by
  simp [Memory.read, setByte_byteAt_other hne]

end

/-! ### The host's operations on the region -/

section
variable {s : State} {a : Word} {b : Byte}

theorem readMem_of_lt (h : a.toNat < s.mem.size) : s.readMem a = .next (s.withReply (.byte (s.mem.byteAt a))) := by
  simp [State.readMem, read_of_lt h]

theorem readMem_of_ge (h : s.mem.size ≤ a.toNat) : s.readMem a = .next (s.withReply (.error (.outOfBounds a))) := by
  simp [State.readMem, read_of_ge h, State.raise]

theorem writeMem_of_lt (h : a.toNat < s.mem.size) :
    s.writeMem a b = .next (({ s with mem := s.mem.setByte a b } : State).withReply .ok) := by
  simp [State.writeMem, write_of_lt h]

theorem writeMem_of_ge (h : s.mem.size ≤ a.toNat) :
    s.writeMem a b = .next (s.withReply (.error (.outOfBounds a))) := by
  simp [State.writeMem, write_of_ge h, State.raise]

end

/-! ### The rows of the memory port's table (R56) -/

section
variable {s : State} {ins : MemIn}

theorem memCycle_none (hop : ins.memOp = 0b00#2) : s.memCycle ins = .next (s.withReply (.memPort ⟨0, false⟩)) := by
  simp [State.memCycle, hop]

theorem memCycle_read (hop : ins.memOp = 0b01#2) (hin : s.mem.inBounds ins.memAddr = true) :
    s.memCycle ins = .next (s.withReply (.memPort ⟨s.mem.byteAt ins.memAddr, false⟩)) := by
  simp [State.memCycle, hop, Memory.oob, hin]

theorem memCycle_read_oob (hop : ins.memOp = 0b01#2) (hout : s.mem.inBounds ins.memAddr = false) :
    s.memCycle ins = .next (s.withReply (.memPort ⟨0, true⟩)) := by
  simp [State.memCycle, hop, Memory.oob, hout]

theorem memCycle_write (hop : ins.memOp = 0b10#2) (hin : s.mem.inBounds ins.memAddr = true) :
    s.memCycle ins = .next (({ s with mem := s.mem.setByte ins.memAddr ins.memWdata } : State).withReply
      (.memPort ⟨0, false⟩)) := by
  simp [State.memCycle, hop, Memory.oob, hin]

theorem memCycle_write_oob (hop : ins.memOp = 0b10#2) (hout : s.mem.inBounds ins.memAddr = false) :
    s.memCycle ins = .next (s.withReply (.memPort ⟨0, true⟩)) := by
  simp [State.memCycle, hop, Memory.oob, hout]

theorem memCycle_reserved (hop : ins.memOp = 0b11#2) : s.memCycle ins = .refused .memOpNotAllowed := by
  simp [State.memCycle, hop]

end

/-! ### The statements -/

/-- Settles O11: the canonical form makes the stored byte read back, the byte 0 included, and a store leaves what every
other address reads. -/
theorem writeStoresOneByteOrOutOfBounds : Obligations.WriteStoresOneByteOrOutOfBounds := by
  intro s a b rest hwf hf ha
  rw [step_eq_perform hf ha, State.perform]
  constructor
  · intro hin
    exact ⟨_, writeMem_of_lt hin, rfl, setByte_read_same hwf hin, fun _ hne => setByte_read_other hne,
      rfl, rfl, rfl, rfl, rfl, hf⟩
  · exact fun hout => writeMem_of_ge hout

/-- Settles O10: a `read` in bounds replies with the byte and one out of bounds raises the error. -/
theorem readReturnsByteOrOutOfBounds : Obligations.ReadReturnsByteOrOutOfBounds := by
  intro s a rest hf ha
  rw [step_eq_perform hf ha, State.perform]
  exact ⟨fun hin => readMem_of_lt hin, fun hout => readMem_of_ge hout⟩

/-- Settles O13: one row of the table for each clause; where `read` or `write` succeeds, it names the byte or the region
of the row. -/
theorem memoryPortFollowsItsTable : Obligations.MemoryPortFollowsItsTable := by
  intro s ins rest hf ha
  rw [step_eq_perform hf ha, State.perform]
  refine ⟨memCycle_none, ?read, ?readOob, ?write, ?writeOob, memCycle_reserved⟩
  case read =>
    intro hop b hread
    obtain ⟨hin, rfl⟩ := read_ok_iff.mp hread
    exact memCycle_read hop hin
  case readOob =>
    intro hop hge
    exact memCycle_read_oob hop (inBounds_of_ge hge)
  case write =>
    intro hop m hwrite
    obtain ⟨hin, rfl⟩ := write_ok_iff.mp hwrite
    exact memCycle_write hop hin
  case writeOob =>
    intro hop hge
    exact memCycle_write_oob hop (inBounds_of_ge hge)

end Sys2Proof.Machine
end

section
/-! PROOFS. The stored bytes of a word as digits of its number in base 256, and the statement about the little-endian
form of a word that follows from them. -/

namespace Sys2Proof

/-! ### The bytes of a word -/

@[simp] theorem storedBytes_length (w : InstrWord) : (storedBytes w).length = 16 := by simp [storedBytes]

/-- The byte at an offset of the stored form (R71). -/
theorem storedBytes_getElem? (w : InstrWord) {k : Nat} (hk : k < 16) : (storedBytes w)[k]? = some (storedByte w k) := by
  simp [storedBytes, hk]

/-- A stored byte is a digit of the word's number in base 256. -/
theorem storedByte_toNat (w : InstrWord) (k : Nat) : (storedByte w k).toNat = w.toNat / 256 ^ k % 256 := by
  simp [storedByte, Nat.shiftRight_eq_div_pow, Nat.pow_mul]

/-- Byte 0 is the tag (R71). -/
theorem storedByte_zero (w : InstrWord) : storedByte w 0 = tagField w := rfl

/-- Byte `8 + k` is byte `k` of `imm` (R71). -/
theorem storedByte_eight_add (w : InstrWord) (k : Nat) :
    storedByte w (8 + k) = (immField w).extractLsb' (8 * k) 8 := by
  apply BitVec.eq_of_toNat_eq
  rw [storedByte_toNat, BitVec.extractLsb'_toNat, immField_toNat, Nat.shiftRight_eq_div_pow, Nat.div_div_eq_div_mul,
    Nat.pow_add, Nat.pow_mul]
  norm_num

/-! ### Reading bytes back -/

/-- A byte stored after others is the most significant one. -/
theorem littleEndian_concat (b : Byte) :
    ∀ bs : List Byte, littleEndian (bs ++ [b]) = littleEndian bs + 256 ^ bs.length * b.toNat
  | [] => by simp [littleEndian]
  | c :: cs => by
    simp only [List.cons_append, littleEndian, littleEndian_concat b cs, List.length_cons, Nat.pow_succ]
    ring

/-- The first `n` bytes of a word hold its number modulo `256 ^ n`. -/
theorem littleEndian_storedBytes_prefix (w : InstrWord) (n : Nat) :
    littleEndian ((List.range n).map (storedByte w)) = w.toNat % 256 ^ n := by
  induction n with
  | zero => simp [littleEndian, Nat.mod_one]
  | succ n ih =>
    rw [List.range_succ, List.map_append, List.map_singleton, littleEndian_concat, ih, storedByte_toNat,
      List.length_map, List.length_range, Nat.mod_pow_succ]

/-- The sixteen bytes of a word hold the whole number. -/
theorem littleEndian_storedBytes (w : InstrWord) : littleEndian (storedBytes w) = w.toNat :=
  (littleEndian_storedBytes_prefix w 16).trans (Nat.mod_eq_of_lt w.isLt)

theorem wordOfBytes_storedBytes (w : InstrWord) : wordOfBytes (storedBytes w) = some w := by
  rw [wordOfBytes, if_pos (storedBytes_length w), littleEndian_storedBytes, BitVec.ofNat_toNat, BitVec.setWidth_eq]

/-! ### The statement -/

/-- Settles O18: the bytes at the offsets the rule names are the tag and the bytes of `imm`, and the sixteen digits in
base 256 sum to the word's number. -/
theorem storedWordIsLittleEndian : Obligations.StoredWordIsLittleEndian := by
  intro w
  refine ⟨storedBytes_length w, ?tag, ?imm, wordOfBytes_storedBytes w⟩
  case tag => rw [storedBytes_getElem? w (by decide), storedByte_zero]
  case imm =>
    intro k hk
    rw [storedBytes_getElem? w (by omega), storedByte_eight_add]

end Sys2Proof
end

section
/-! PROOFS. The loader start and the load-and-run contract: what each leaves alone, and the two errors that come before
the start. -/

namespace Sys2Proof.Machine

/-! ### The unit the loader starts -/

theorem sameBytes_of_mem_eq {s t : State} (h : t.mem = s.mem) : sameBytes s t := by simp [sameBytes, h]

section
variable (s : State) (k : Nat) (u : UnitState) (start : Word)

@[simp] theorem loadUnit_units : (s.loadUnit k u start).units = s.units.set k (u.load start) := rfl
@[simp] theorem loadUnit_mem : (s.loadUnit k u start).mem = s.mem := rfl
@[simp] theorem loadUnit_lifecycle : (s.loadUnit k u start).lifecycle = s.lifecycle := rfl
@[simp] theorem loadUnit_agenda : (s.loadUnit k u start).agenda = s.agenda := rfl
@[simp] theorem loadUnit_target : (s.loadUnit k u start).target = k := rfl
@[simp] theorem loadUnit_feed : (s.loadUnit k u start).feed = s.feed := rfl
@[simp] theorem loadUnit_reply : (s.loadUnit k u start).reply = .ok := rfl

end

/-- A state that holds the loaded unit as unit `k` and is otherwise as before meets R88. -/
theorem loaded_unit_effect {s t : State} {k : Nat} {u : UnitState} {start : Word} (hu : s.units[k]? = some u)
    (hunits : t.units = s.units.set k (u.load start)) (hmem : t.mem = s.mem) (hlife : t.lifecycle = s.lifecycle) :
    t.units[k]? = some (u.load start) ∧ (u.load start).pc = start ∧ (u.load start).running = true ∧
      (∀ i, (u.load start).reg i = u.reg i) ∧ (∀ j, j ≠ k → t.units[j]? = s.units[j]?) ∧ sameBytes s t ∧
      t.lifecycle = s.lifecycle :=
  ⟨hunits ▸ setUnit_same s k _ hu, rfl, rfl, fun _ => rfl, fun _ hj => hunits ▸ setUnit_other s k _ hj,
    sameBytes_of_mem_eq hmem, hlife⟩

/-! ### What each form of the loader start answers -/

section
variable {s : State} {k : Nat} {u : UnitState} {instructions : List Presented} {start : Word}

theorem units_ne_nil (hu : s.units[k]? = some u) : s.units ≠ [] := by
  rintro h
  simp [h] at hu

theorem beginRun_some (hu : s.units[k]? = some u) :
    s.beginRun k instructions start = .next { s.loadUnit k u start with feed := remaining instructions } := by
  simp [State.beginRun, units_ne_nil hu, hu]

theorem beginRun_noUnits (h : s.units = []) :
    s.beginRun k instructions start = .next (s.withReply (.error .noUnitsAvailable)) := by
  simp [State.beginRun, State.raise, h]

theorem beginRun_missing (hne : s.units ≠ []) (hk : s.units[k]? = none) :
    s.beginRun k instructions start = .refused .noSuchUnit := by
  simp only [State.beginRun, if_neg hne, hk]

theorem loadAndRun_noUnits (h : s.units = []) :
    s.loadAndRun k instructions start = .next (s.withReply (.error .noUnitsAvailable)) := by
  simp [State.loadAndRun, State.raise, h]

theorem loadAndRun_missing (hne : s.units ≠ []) (hk : s.units[k]? = none) :
    s.loadAndRun k instructions start = .refused .noSuchUnit := by
  simp only [State.loadAndRun, if_neg hne, hk]

theorem loadAndRun_some (hu : s.units[k]? = some u) :
    s.loadAndRun k instructions start = State.feedAll instructions (s.loadUnit k u start) := by
  simp only [State.loadAndRun, if_neg (units_ne_nil hu), hu]

/-- The load row of the cycle table (R82). -/
theorem unitCycle_load {ins : UnitIn} (hu : s.units[k]? = some u) (hrst : ins.rst = false)
    (hload : ins.loadValid = true) (hexec : ins.execValid = false) :
    s.unitCycle k ins =
      .next (((s.withTarget k).setUnit k (u.load ins.loadAddr)).withReply (.unitPorts (u.outputs ins))) := by
  simp [State.unitCycle, State.edge, mapNext, hu, hrst, hload, hexec]

end

/-! ### The contract of R90 -/

/-- What the contract can do when it answers a next state: raise NoUnitsAvailable, or start the unit and feed it. -/
theorem loadAndRun_cases {s t : State} {k : Nat} {instructions : List Presented} {start : Word}
    (h : s.loadAndRun k instructions start = .next t) :
    (s.units = [] ∧ t = s.withReply (.error .noUnitsAvailable)) ∨
    (∃ u, s.units[k]? = some u ∧ State.feedAll instructions (s.loadUnit k u start) = .next t) := by
  by_cases hunits : s.units = []
  · rw [loadAndRun_noUnits hunits] at h
    cases h
    exact .inl ⟨hunits, rfl⟩
  · cases hu : s.units[k]? with
    | none => rw [loadAndRun_missing hunits hu] at h; cases h
    | some u => exact .inr ⟨u, rfl, loadAndRun_some hu ▸ h⟩

/-- What feeding a sequence can do when it answers a next state: the first instruction is presented, and the run stops
after it or goes on with the rest. -/
theorem feedAll_cons_cases {s t : State} {p : Presented} {rest : List Presented}
    (h : State.feedAll (p :: rest) s = .next t) :
    ∃ r, s.present p = .next r ∧
      ((r.feedStops = true ∧ t = r) ∨ (r.feedStops = false ∧ State.feedAll rest r = .next t)) := by
  rw [State.feedAll] at h
  cases hp : s.present p with
  | next r =>
    rw [hp] at h
    refine ⟨r, rfl, ?_⟩
    cases hstop : r.feedStops with
    | true => simp only [hstop, if_true] at h; cases h; exact .inl ⟨rfl, rfl⟩
    | false => simp only [hstop] at h; exact .inr ⟨rfl, h⟩
  | fault e => rw [hp] at h; cases h
  | refused e => rw [hp] at h; cases h

/-- What feeding a sequence leaves alone: everything but the unit it is fed to and the reply. -/
theorem feedAll_frame {instructions : List Presented} {s t : State} (h : State.feedAll instructions s = .next t) :
    t.mem = s.mem ∧ t.lifecycle = s.lifecycle ∧ t.agenda = s.agenda ∧ t.target = s.target ∧ t.feed = s.feed ∧
      t.units.length = s.units.length ∧ ∀ j, j ≠ s.target → t.units[j]? = s.units[j]? := by
  induction instructions generalizing s with
  | nil => cases h; exact ⟨rfl, rfl, rfl, rfl, rfl, rfl, fun _ _ => rfl⟩
  | cons p rest ih =>
    obtain ⟨r, hp, ⟨-, rfl⟩ | ⟨-, hrest⟩⟩ := feedAll_cons_cases h
    · exact present_frame hp
    · obtain ⟨hmem, hlife, hagenda, htarget, hfeed, hlen, hother⟩ := present_frame hp
      obtain ⟨hmem', hlife', hagenda', htarget', hfeed', hlen', hother'⟩ := ih hrest
      exact ⟨hmem'.trans hmem, hlife'.trans hlife, hagenda'.trans hagenda, htarget'.trans htarget,
        hfeed'.trans hfeed, hlen'.trans hlen, fun j hj => (hother' j (htarget ▸ hj)).trans (hother j hj)⟩

/-! ### The statements -/

/-- Settles O44: the start and every fed instruction write unit `k` only, and a host with no unit keeps its state. -/
theorem loadAndRunTouchesOneUnit : Obligations.LoadAndRunTouchesOneUnit := by
  intro s t k instructions start h
  obtain ⟨-, rfl⟩ | ⟨u, -, hrun⟩ := loadAndRun_cases h
  · exact ⟨rfl, fun _ _ => rfl, sameBytes_of_mem_eq rfl⟩
  · obtain ⟨hmem, -, -, -, -, hlen, hother⟩ := feedAll_frame hrun
    exact ⟨by simpa using hlen, fun j hj => (hother j hj).trans (setUnit_other s k _ hj), sameBytes_of_mem_eq hmem⟩

/-- Settles O39: both forms of the start put the loaded unit at index `k` and leave every other unit, the memory and the
lifecycle. -/
theorem loaderSetsPcAndRunningOnly : Obligations.LoaderSetsPcAndRunningOnly := by
  intro s k u start hu
  constructor
  · intro instructions
    exact ⟨_, u.load start, beginRun_some hu, loaded_unit_effect hu rfl rfl rfl⟩
  · rintro ins hrst hload hexec rfl
    exact ⟨_, u.load ins.loadAddr, unitCycle_load hu hrst hload hexec, loaded_unit_effect hu rfl rfl rfl⟩

/-- Settles O40: the contract and the driver's first step test for a host with no unit before anything else. -/
theorem noUnitsRaisesNoUnitsAvailable : Obligations.NoUnitsRaisesNoUnitsAvailable := by
  intro s k instructions start rest hunits
  refine ⟨loadAndRun_noUnits hunits, fun hf ha => ?_⟩
  rw [step_eq_perform hf ha]
  exact beginRun_noUnits hunits

/-- Settles O41: with the host's own test for no unit passed, an index past the last unit finds none. -/
theorem unitIndexOutOfRangeIsRefused : Obligations.UnitIndexOutOfRangeIsRefused := by
  intro s k instructions start rest hpos hk
  have hne : s.units ≠ [] := List.ne_nil_of_length_pos hpos
  have hnone : s.units[k]? = none := List.getElem?_eq_none hk
  refine ⟨loadAndRun_missing hne hnone, fun hf ha => ?_⟩
  rw [step_eq_perform hf ha]
  exact beginRun_missing hne hnone

end Sys2Proof.Machine
end

section
/-! PROOFS. What the decoder accepts, when an instruction fails, and the combinational error report (R84) as the result
of the execution it stands beside. -/

namespace Sys2Proof

/-! ### What the decoder accepts -/

theorem ifUnusedZero_ok_iff {zero : Bool} {i j : Instr} : ifUnusedZero zero i = .ok j ↔ zero = true ∧ j = i := by
  cases zero <;> simp [ifUnusedZero, eq_comm]

/-- A word the decoder accepts: its reserved field is zero, and so is each field that the variant of its tag does not
use (R64, R65, R66). -/
theorem decode_ok_cases {w : InstrWord} {i : Instr} (h : decode w = .ok i) :
    rsvField w = 0#40 ∧
    ((tagField w = 0x01#8 ∧ bField w = 0#8 ∧ i = .loadImmediate (aField w).toNat (immField w)) ∨
     (tagField w = 0x02#8 ∧ immField w = 0#64 ∧ i = .move (aField w).toNat (bField w).toNat) ∨
     (tagField w = 0x03#8 ∧ immField w = 0#64 ∧ i = .add (aField w).toNat (bField w).toNat) ∨
     (tagField w = 0x04#8 ∧ aField w = 0#8 ∧ bField w = 0#8 ∧ i = .jump (immField w)) ∨
     (tagField w = 0x05#8 ∧ aField w = 0#8 ∧ bField w = 0#8 ∧ immField w = 0#64 ∧ i = .halt)) := by
  unfold decode at h
  split_ifs at h with hrsv h1 h2 h3 h4 h5
  all_goals
    obtain ⟨hzero, rfl⟩ := ifUnusedZero_ok_iff.mp h
    simp_all

end Sys2Proof

namespace Sys2Proof.Machine

/-! ### When an instruction fails -/

theorem badIndex_iff {i : Nat} : badIndex i = true ↔ Config.numRegs ≤ i := decide_eq_true_iff

section
variable {reg dest src : Nat} {value : Word} {r : Report}

/-- R133 for LoadImmediate: its one operand is invalid. -/
theorem invalidOperands_loadImmediate_iff :
    invalidOperands (.loadImmediate reg value) = some r ↔ Config.numRegs ≤ reg ∧ r = reportOne reg := by
  simp [invalidOperands, badIndex_iff, @eq_comm Report r]

/-- R133 for Move: an operand is invalid, and the report describes both. -/
theorem invalidOperands_move_iff : invalidOperands (.move dest src) = some r ↔
    (Config.numRegs ≤ dest ∨ Config.numRegs ≤ src) ∧ r = reportTwo dest src := by
  simp [invalidOperands, badIndex_iff, @eq_comm Report r]

/-- R133 for Add: as for Move. -/
theorem invalidOperands_add_iff : invalidOperands (.add dest src) = some r ↔
    (Config.numRegs ≤ dest ∨ Config.numRegs ≤ src) ∧ r = reportTwo dest src :=
  invalidOperands_move_iff

end

/-- An operand of the instruction is invalid: its meaning raises InvalidRegister with the report, on every unit. -/
theorem onOneUnit_of_invalidOperands {i : Instr} {r : Report} (h : invalidOperands i = some r) (u : UnitState) :
    onOneUnit i u = .error (.invalidRegister r) := by
  cases i with
  | loadImmediate reg value =>
    obtain ⟨hbad, rfl⟩ := invalidOperands_loadImmediate_iff.mp h
    simp only [onOneUnit, loadImmediate, withRegister_invalid hbad]
  | move dest src =>
    obtain ⟨hbad, rfl⟩ := invalidOperands_move_iff.mp h
    simp only [onOneUnit, move, withRegisters_invalid hbad]
  | add dest src =>
    obtain ⟨hbad, rfl⟩ := invalidOperands_add_iff.mp h
    simp only [onOneUnit, add, withRegisters_invalid hbad]
  | jump address => cases h
  | halt => cases h

/-- No operand of the instruction is invalid: its meaning succeeds on every unit. -/
theorem onOneUnit_of_validOperands {i : Instr} (h : invalidOperands i = none) (u : UnitState) :
    ∃ v, onOneUnit i u = .ok v := by
  cases i with
  | loadImmediate reg value =>
    have hr : reg < Config.numRegs := by simpa [invalidOperands, badIndex] using h
    exact ⟨_, onOneUnit_loadImmediate_ok_iff.mpr ⟨hr, rfl⟩⟩
  | move dest src =>
    obtain ⟨hd, hs⟩ : dest < Config.numRegs ∧ src < Config.numRegs := by simpa [invalidOperands, badIndex] using h
    exact ⟨_, onOneUnit_move_ok_iff.mpr ⟨hd, hs, rfl⟩⟩
  | add dest src =>
    obtain ⟨hd, hs⟩ : dest < Config.numRegs ∧ src < Config.numRegs := by simpa [invalidOperands, badIndex] using h
    exact ⟨_, onOneUnit_add_ok_iff.mpr ⟨hd, hs, rfl⟩⟩
  | jump address => exact ⟨_, rfl⟩
  | halt => exact ⟨_, rfl⟩

/-- The reply of `exec`: the report of the invalid operands if there is one, else success. -/
theorem exec_reply {i : Instr} {s t : State} (h : exec i s = .next t) :
    t.reply = match invalidOperands i with
      | some r => .error (.invalidRegister r)
      | none => .ok := by
  obtain ⟨-, u, -, hres⟩ := exec_cases h
  cases hi : invalidOperands i with
  | some r =>
    have herr := onOneUnit_of_invalidOperands hi u
    rcases hres with ⟨v, hok, -⟩ | ⟨e, he, rfl⟩
    · cases hok.symm.trans herr
    · cases he.symm.trans herr; rfl
  | none =>
    obtain ⟨v, hv⟩ := onOneUnit_of_validOperands hi u
    rcases hres with ⟨v', -, rfl⟩ | ⟨e, he, -⟩
    · rfl
    · cases he.symm.trans hv

/-! ### The error report of a word -/

/-- The report of a legal word's invalid operands, in the fields of the word: field `b` is no operand of LoadImmediate,
and is zero there (R133). -/
theorem report_of_decoded {w : InstrWord} {i : Instr} {r : Report} (hi : decode w = .ok i)
    (hr : invalidOperands i = some r) :
    r.badA = decide (16 ≤ (aField w).toNat) ∧
      r.badB = (tagField w != 0x01#8 && decide (16 ≤ (bField w).toNat)) ∧
      r.idxA = aField w ∧ r.idxB = bField w := by
  obtain ⟨-, ⟨htag, hb, rfl⟩ | ⟨htag, -, rfl⟩ | ⟨htag, -, rfl⟩ | ⟨-, -, -, rfl⟩ | ⟨-, -, -, -, rfl⟩⟩ :=
    decode_ok_cases hi
  case inl =>
    obtain ⟨-, rfl⟩ := invalidOperands_loadImmediate_iff.mp hr
    simp [reportOne, badIndex, htag, hb]
  case inr.inl =>
    obtain ⟨-, rfl⟩ := invalidOperands_move_iff.mp hr
    simp [reportTwo, badIndex, htag]
  case inr.inr.inl =>
    obtain ⟨-, rfl⟩ := invalidOperands_add_iff.mp hr
    simp [reportTwo, badIndex, htag]
  case inr.inr.inr.inl => cases hr
  case inr.inr.inr.inr => cases hr

/-- The three reports of a presented word (R84): it is illegal, an operand is invalid, or all is well. -/
theorem wordOut_cases (w : InstrWord) :
    (∃ e, decode w = .error e ∧ wordOut w = illegalOut) ∨
    (∃ i r, decode w = .ok i ∧ invalidOperands i = some r ∧ wordOut w = invalidOut r) ∨
    (∃ i, decode w = .ok i ∧ invalidOperands i = none ∧ wordOut w = quietOut) := by
  unfold wordOut
  cases hd : decode w with
  | error e => exact .inl ⟨e, rfl, rfl⟩
  | ok i =>
    cases hi : invalidOperands i with
    | some r => exact .inr (.inl ⟨i, r, rfl, hi, by simp only [hi]⟩)
    | none => exact .inr (.inr ⟨i, rfl, hi, by simp only [hi]⟩)

/-- A presented word and its error report agree case by case (R84, R89). -/
theorem present_word_report {s t : State} {w : InstrWord} (h : s.present (.word w) = .next t) :
    (wordOut w = illegalOut ∧ t.reply = .error (.illegalInstruction w)) ∨
    (∃ i r, decode w = .ok i ∧ invalidOperands i = some r ∧ wordOut w = invalidOut r ∧
      t.reply = .error (.invalidRegister r)) ∨
    (wordOut w = quietOut ∧ t.reply = .ok) := by
  have legal {i : Instr} (hd : decode w = .ok i) : exec i s = .next t :=
    present_decoded (p := .word w) (i := i) (by simp [Presented.instr, hd]) ▸ h
  obtain ⟨e, hd, hout⟩ | ⟨i, r, hd, hi, hout⟩ | ⟨i, hd, hi, hout⟩ := wordOut_cases w
  · refine .inl ⟨hout, ?_⟩
    simp only [State.present, Presented.instr, hd] at h
    obtain ⟨_, -, ⟨_, hok, -⟩ | ⟨e', he, rfl⟩⟩ := onUnit_cases h
    · cases hok
    · cases he; rfl
  · exact .inr (.inl ⟨i, r, hd, hi, hout, by rw [exec_reply (legal hd), hi]⟩)
  · exact .inr (.inr ⟨hout, by rw [exec_reply (legal hd), hi]⟩)

/-! ### The error report of a cycle -/

theorem errorOut_execute {ins : UnitIn} (hexec : ins.execValid = true) (hrst : ins.rst = false)
    (hload : ins.loadValid = false) : errorOut ins = wordOut ins.execInstr := by
  simp [errorOut, hexec, hrst, hload]

theorem errorOut_quiet {ins : UnitIn} (h : ins.execValid = false ∨ ins.rst = true ∨ ins.loadValid = true) :
    errorOut ins = quietOut :=
  if_pos (by simpa [or_assoc] using h)

/-- A cycle's report is quiet or that of its word. -/
theorem errorOut_cases (ins : UnitIn) : errorOut ins = quietOut ∨ errorOut ins = wordOut ins.execInstr :=
  ite_eq_or_eq _ _ _

/-- No word has the status `11` (R84). -/
theorem wordOut_status_ne (w : InstrWord) : (wordOut w).status ≠ 0b11 := by
  obtain ⟨_, -, hout⟩ | ⟨_, _, -, -, hout⟩ | ⟨_, -, -, hout⟩ := wordOut_cases w <;>
    simp [hout, illegalOut, invalidOut, quietOut]

/-! ### The statement -/

/-- Settles O37: the word's report is one of three, each with its own status, and the execution replies in the same
three cases. -/
theorem errorReportDescribesTheExecution : Obligations.ErrorReportDescribesTheExecution := by
  intro ins
  refine ⟨errorOut_quiet, ?never, fun hexec hrst hload s t u _ hp => ?execute⟩
  case never =>
    rcases errorOut_cases ins with h | h <;> rw [h]
    · simp [quietOut]
    · exact wordOut_status_ne _
  case execute =>
    rw [errorOut_execute hexec hrst hload]
    obtain ⟨hout, hreply⟩ | ⟨i, r, hd, hi, hout, hreply⟩ | ⟨hout, hreply⟩ := present_word_report hp
    · simp [hout, hreply, illegalOut]
    · simpa [hout, hreply, invalidOut] using report_of_decoded hd hi
    · simp [hout, hreply, quietOut]

end Sys2Proof.Machine
end

section
/-! PROOFS. The words that the rows of LoadImmediate and Move accept, how `exec` ends on a unit that exists, and the
statements about the two data-movement instructions (R100, R101) that follow from it. -/

namespace Sys2Proof

/-! ### Which words a row of the opcode map accepts -/

section
variable {w : InstrWord}

/-- The five fields of a word: `tag`, `a`, `b`, `rsv`, `imm` (R62). -/
def wordFields (w : InstrWord) : BitVec 8 × BitVec 8 × BitVec 8 × BitVec 40 × Word :=
  (tagField w, aField w, bField w, rsvField w, immField w)

/-- The five fields cover the word (R62). -/
theorem wordFields_injective : Function.Injective wordFields := by
  intro w w' h
  apply BitVec.eq_of_toNat_eq
  simp only [wordFields, Prod.mk.injEq, BitVec.toNat_eq, tagField_toNat, aField_toNat, bField_toNat, rsvField_toNat,
    immField_toNat] at h
  omega

/-- A row compares a word field by field, each under its part of the mask (R68). -/
theorem accepts_iff_fields {r : OpcodeRow} : r.accepts w = true ↔
    tagField w &&& tagField r.mask = tagField r.pattern ∧ aField w &&& aField r.mask = aField r.pattern ∧
    bField w &&& bField r.mask = bField r.pattern ∧ rsvField w &&& rsvField r.mask = rsvField r.pattern ∧
    immField w &&& immField r.mask = immField r.pattern := by
  rw [OpcodeRow.accepts, beq_iff_eq, ← wordFields_injective.eq_iff]
  simp only [wordFields, Prod.mk.injEq, tagField, aField, bField, rsvField, immField, BitVec.extractLsb'_and]

/-- R68's row of LoadImmediate in fields: it leaves `a` and `imm` free. -/
theorem loadImmediate_accepts_iff : (Instr.loadImmediate 0 0).row.accepts w = true ↔
    tagField w = 0x01#8 ∧ bField w = 0#8 ∧ rsvField w = 0#40 := by
  have hmask : wordFields (Instr.loadImmediate 0 0).row.mask =
      (BitVec.allOnes 8, 0#8, BitVec.allOnes 8, BitVec.allOnes 40, 0#64) := by decide
  have hpattern : wordFields (Instr.loadImmediate 0 0).row.pattern = (0x01#8, 0#8, 0#8, 0#40, 0#64) := by decide
  simp only [wordFields, Prod.mk.injEq] at hmask hpattern
  simp only [accepts_iff_fields, hmask, hpattern, BitVec.and_allOnes, BitVec.and_zero, true_and, and_true]

/-- R68's row of Move in fields: it leaves `a` and `b` free. -/
theorem move_accepts_iff : (Instr.move 0 0).row.accepts w = true ↔
    tagField w = 0x02#8 ∧ rsvField w = 0#40 ∧ immField w = 0#64 := by
  have hmask : wordFields (Instr.move 0 0).row.mask =
      (BitVec.allOnes 8, 0#8, 0#8, BitVec.allOnes 40, BitVec.allOnes 64) := by decide
  have hpattern : wordFields (Instr.move 0 0).row.pattern = (0x02#8, 0#8, 0#8, 0#40, 0#64) := by decide
  simp only [wordFields, Prod.mk.injEq] at hmask hpattern
  simp only [accepts_iff_fields, hmask, hpattern, BitVec.and_allOnes, BitVec.and_zero, true_and]

/-! ### A word with an instruction's tag is legal exactly when the instruction's row accepts it -/

theorem decode_of_loadImmediate_accepts (h : (Instr.loadImmediate 0 0).row.accepts w = true) :
    decode w = .ok (.loadImmediate (aField w).toNat (immField w)) := by
  obtain ⟨htag, hb, hrsv⟩ := loadImmediate_accepts_iff.mp h
  simp [decode, ifUnusedZero, htag, hb, hrsv]

theorem loadImmediate_accepts_of_decode {i : Instr} (htag : tagField w = 0x01#8) (h : decode w = .ok i) :
    (Instr.loadImmediate 0 0).row.accepts w = true := by
  obtain ⟨hrsv, hvariant⟩ := decode_ok_cases h
  obtain ⟨hb, -⟩ : bField w = 0#8 ∧ i = .loadImmediate (aField w).toNat (immField w) := by
    simpa [htag] using hvariant
  exact loadImmediate_accepts_iff.mpr ⟨htag, hb, hrsv⟩

theorem decode_of_move_accepts (h : (Instr.move 0 0).row.accepts w = true) :
    decode w = .ok (.move (aField w).toNat (bField w).toNat) := by
  obtain ⟨htag, hrsv, himm⟩ := move_accepts_iff.mp h
  simp [decode, ifUnusedZero, htag, hrsv, himm]

theorem move_accepts_of_decode {i : Instr} (htag : tagField w = 0x02#8) (h : decode w = .ok i) :
    (Instr.move 0 0).row.accepts w = true := by
  obtain ⟨hrsv, hvariant⟩ := decode_ok_cases h
  obtain ⟨himm, -⟩ : immField w = 0#64 ∧ i = .move (aField w).toNat (bField w).toNat := by
    simpa [htag] using hvariant
  exact move_accepts_iff.mpr ⟨htag, hrsv, himm⟩

end

end Sys2Proof

namespace Sys2Proof.Machine

/-! ### How presenting and executing end on a unit that exists -/

theorem encodableIndex_of_lt {n : Nat} (h : n < 256) : encodableIndex n = true := decide_eq_true h

section
variable {s : State} {u v : UnitState} {i : Instr}

/-- A word that decodes to no instruction raises IllegalInstruction, and nothing else changes (R132). -/
theorem present_of_decode_ne_ok {w : InstrWord} (h : ∀ i, decode w ≠ .ok i) (hu : s.units[s.target]? = some u) :
    s.present (.word w) = .next (s.withReply (.error (.illegalInstruction w))) := by
  cases hd : decode w with
  | ok i => exact absurd hd (h i)
  | error e => simp only [State.present, Presented.instr, hd, onUnit_some hu, State.raise]

/-- An instruction that succeeds on the driven unit commits its result (R86, R89). -/
theorem exec_of_onOneUnit_ok (hw : i.wellFormed = true) (hu : s.units[s.target]? = some u)
    (h : onOneUnit i u = .ok v) : exec i s = .next ((s.setUnit s.target v).withReply .ok) := by
  rw [exec_wellFormed hw, onUnit_some hu, h]
  rfl

/-- An encodable instruction with an invalid operand answers the report, and nothing else changes (R133). -/
theorem exec_of_invalidOperands {r : Report} (hw : i.wellFormed = true) (hu : s.units[s.target]? = some u)
    (h : invalidOperands i = some r) : exec i s = .next (s.withReply (.error (.invalidRegister r))) := by
  rw [exec_wellFormed hw, onUnit_some hu, onOneUnit_of_invalidOperands h]
  rfl

/-- A result committed on unit `k` changes that unit and the reply only (R25, R86). -/
theorem sameButUnit_commit (s : State) (k : Nat) (v : UnitState) (r : Reply) :
    sameButUnit k s ((s.setUnit k v).withReply r) :=
  ⟨by simp, fun _ hj => setUnit_other s k v hj, sameBytes_of_mem_eq rfl, rfl, rfl, rfl, rfl⟩

/-- The incremented `pc` as a number (R29). -/
theorem advancePc_pc_toNat (u : UnitState) : u.advancePc.pc.toNat = (u.pc.toNat + 1) % 2 ^ 64 := by
  simp [alu_toNat]

/-- The result and the frame of an instruction that writes `value` into one register and increments `pc`. -/
theorem exec_writes_register {d : Fin Config.numRegs} {value : Word} (hw : i.wellFormed = true)
    (hu : s.units[s.target]? = some u) (h : onOneUnit i u = .ok (u.setReg d value).advancePc) :
    ∃ t v, exec i s = .next t ∧ t.reply = .ok ∧ t.units[s.target]? = some v ∧ v.reg d = value ∧
      (∀ j, j ≠ d → v.reg j = u.reg j) ∧ v.pc.toNat = (u.pc.toNat + 1) % 2 ^ 64 ∧ v.running = u.running ∧
      sameButUnit s.target s t :=
  ⟨_, _, exec_of_onOneUnit_ok hw hu h, rfl, setUnit_same s s.target _ hu, setReg_reg_same u d value,
    fun _ hj => setReg_reg_other u d _ value hj, advancePc_pc_toNat _, rfl, sameButUnit_commit ..⟩

end

/-! ### The statements -/

/-- Settles O21: the row's words by their fields, then R100's success and failure on the driven unit. -/
theorem loadImmediateFollowsItsRule : Obligations.LoadImmediateFollowsItsRule := by
  refine ⟨fun w => decode_of_loadImmediate_accepts, fun w s u htag hrow hu => ?illegal,
    fun s u reg value hu => ?success, fun s u reg value hu hbad hreg => ?failure⟩
  case illegal =>
    exact present_of_decode_ne_ok (fun i hi => Bool.eq_false_iff.mp hrow (loadImmediate_accepts_of_decode htag hi)) hu
  case success =>
    exact exec_writes_register (encodableIndex_of_valid reg.isLt) hu
      (onOneUnit_loadImmediate_ok_iff.mpr ⟨reg.isLt, rfl⟩)
  case failure =>
    have hreport : invalidOperands (.loadImmediate reg value) = some ⟨true, BitVec.ofNat 8 reg, false, 0⟩ :=
      invalidOperands_loadImmediate_iff.mpr ⟨hbad, by simp [reportOne, badIndex_iff.mpr hbad]⟩
    exact exec_of_invalidOperands (encodableIndex_of_lt hreg) hu hreport

/-- Settles O22: the row's words by their fields, then R101's success and failure on the driven unit. -/
theorem moveFollowsItsRule : Obligations.MoveFollowsItsRule := by
  refine ⟨fun w => decode_of_move_accepts, fun w s u htag hrow hu => ?illegal,
    fun s u dest src hu => ?success, fun s u dest src hu hdest hsrc hbad => ?failure⟩
  case illegal =>
    exact present_of_decode_ne_ok (fun i hi => Bool.eq_false_iff.mp hrow (move_accepts_of_decode htag hi)) hu
  case success =>
    have hw : (Instr.move dest.val src.val).wellFormed = true := by
      simp [Instr.wellFormed, encodableIndex_of_valid]
    exact exec_writes_register hw hu (onOneUnit_move_ok_iff.mpr ⟨dest.isLt, src.isLt, rfl⟩)
  case failure =>
    have hw : (Instr.move dest src).wellFormed = true := by
      simp [Instr.wellFormed, encodableIndex_of_lt, hdest, hsrc]
    exact exec_of_invalidOperands hw hu (invalidOperands_move_iff.mpr ⟨hbad, rfl⟩)

end Sys2Proof.Machine
end

section
/-! PROOFS. The words that the row of Add accepts, and the statement about the arithmetic instruction (R110). -/

namespace Sys2Proof

section
variable {w : InstrWord}

/-- A row of R68 that leaves `a` and `b` free, as those of the instructions with two register operands do. -/
theorem accepts_iff_of_free_indices {r : OpcodeRow} {tag : BitVec 8}
    (hmask : wordFields r.mask = (BitVec.allOnes 8, 0#8, 0#8, BitVec.allOnes 40, BitVec.allOnes 64))
    (hpattern : wordFields r.pattern = (tag, 0#8, 0#8, 0#40, 0#64)) :
    r.accepts w = true ↔ tagField w = tag ∧ rsvField w = 0#40 ∧ immField w = 0#64 := by
  simp only [wordFields, Prod.mk.injEq] at hmask hpattern
  simp only [accepts_iff_fields, hmask, hpattern, BitVec.and_allOnes, BitVec.and_zero, true_and]

/-- R68's row of Add in fields. -/
theorem add_accepts_iff : (Instr.add 0 0).row.accepts w = true ↔
    tagField w = 0x03#8 ∧ rsvField w = 0#40 ∧ immField w = 0#64 :=
  accepts_iff_of_free_indices (by decide) (by decide)

theorem decode_of_add_accepts (h : (Instr.add 0 0).row.accepts w = true) :
    decode w = .ok (.add (aField w).toNat (bField w).toNat) := by
  obtain ⟨htag, hrsv, himm⟩ := add_accepts_iff.mp h
  simp [decode, ifUnusedZero, htag, hrsv, himm]

theorem add_accepts_of_decode {i : Instr} (htag : tagField w = 0x03#8) (h : decode w = .ok i) :
    (Instr.add 0 0).row.accepts w = true := by
  obtain ⟨hrsv, hvariant⟩ := decode_ok_cases h
  obtain ⟨himm, -⟩ : immField w = 0#64 ∧ i = .add (aField w).toNat (bField w).toNat := by
    simpa [htag] using hvariant
  exact add_accepts_iff.mpr ⟨htag, hrsv, himm⟩

end

end Sys2Proof

namespace Sys2Proof.Machine

theorem add_wellFormed {dest src : Nat} (hdest : dest < 256) (hsrc : src < 256) :
    (Instr.add dest src).wellFormed = true := by
  simp [Instr.wellFormed, encodableIndex_of_lt, hdest, hsrc]

/-- Settles O23: the row's words by their fields, then R110's success and failure on the driven unit; the register that
the success writes holds the ALU's sum of the old values. -/
theorem addFollowsItsRule : Obligations.AddFollowsItsRule := by
  refine ⟨fun w => decode_of_add_accepts, fun w s u htag hrow hu => ?illegal,
    fun s u dest src hu => ?success, fun s u dest src hu hdest hsrc hbad => ?failure⟩
  case illegal =>
    exact present_of_decode_ne_ok (fun i hi => Bool.eq_false_iff.mp hrow (add_accepts_of_decode htag hi)) hu
  case success =>
    have hw : (Instr.add dest.val src.val).wellFormed = true :=
      add_wellFormed (dest.isLt.trans (by decide)) (src.isLt.trans (by decide))
    obtain ⟨t, v, hexec, hreply, hv, hsum, hframe⟩ :=
      exec_writes_register hw hu (onOneUnit_add_ok_iff.mpr ⟨dest.isLt, src.isLt, rfl⟩)
    exact ⟨t, v, hexec, hreply, hv, by rw [hsum, alu_toNat], hframe⟩
  case failure =>
    exact exec_of_invalidOperands (add_wellFormed hdest hsrc) hu (invalidOperands_add_iff.mpr ⟨hbad, rfl⟩)

end Sys2Proof.Machine
end

section
/-! PROOFS. The words that Jump and Halt accept, and the statements about the two control instructions (R120, R121). -/

namespace Sys2Proof

section
variable {w : InstrWord} {i : Instr}

/-- R68's row of Jump in fields: it leaves `imm` free. -/
theorem jump_accepts_iff : (Instr.jump 0).row.accepts w = true ↔
    tagField w = 0x04#8 ∧ aField w = 0#8 ∧ bField w = 0#8 ∧ rsvField w = 0#40 := by
  have hmask : wordFields (Instr.jump 0).row.mask =
      (BitVec.allOnes 8, BitVec.allOnes 8, BitVec.allOnes 8, BitVec.allOnes 40, 0#64) := by decide
  have hpattern : wordFields (Instr.jump 0).row.pattern = (0x04#8, 0#8, 0#8, 0#40, 0#64) := by decide
  simp only [wordFields, Prod.mk.injEq] at hmask hpattern
  simp only [accepts_iff_fields, hmask, hpattern, BitVec.and_allOnes, BitVec.and_zero, and_true]

theorem decode_of_jump_accepts (h : (Instr.jump 0).row.accepts w = true) : decode w = .ok (.jump (immField w)) := by
  obtain ⟨htag, ha, hb, hrsv⟩ := jump_accepts_iff.mp h
  simp [decode, ifUnusedZero, htag, ha, hb, hrsv]

theorem jump_accepts_of_decode (htag : tagField w = 0x04#8) (h : decode w = .ok i) :
    (Instr.jump 0).row.accepts w = true := by
  obtain ⟨hrsv, hvariant⟩ := decode_ok_cases h
  obtain ⟨ha, hb, -⟩ : aField w = 0#8 ∧ bField w = 0#8 ∧ i = .jump (immField w) := by
    simpa [htag] using hvariant
  exact jump_accepts_iff.mpr ⟨htag, ha, hb, hrsv⟩

/-- The word 5 by its fields (R62): the tag of Halt, and zero in every other field. -/
theorem eq_haltWord_iff : w = 0x05 ↔
    tagField w = 0x05#8 ∧ aField w = 0#8 ∧ bField w = 0#8 ∧ rsvField w = 0#40 ∧ immField w = 0#64 := by
  have hfive : wordFields 0x05 = (0x05#8, 0#8, 0#8, 0#40, 0#64) := by decide
  rw [← wordFields_injective.eq_iff, hfive]
  simp only [wordFields, Prod.mk.injEq]

/-- A legal word with the tag of Halt is the one word of R121. -/
theorem eq_haltWord_of_decode (htag : tagField w = 0x05#8) (h : decode w = .ok i) : w = 0x05 := by
  obtain ⟨hrsv, hvariant⟩ := decode_ok_cases h
  obtain ⟨ha, hb, himm, -⟩ : aField w = 0#8 ∧ bField w = 0#8 ∧ immField w = 0#64 ∧ i = .halt := by
    simpa [htag] using hvariant
  exact eq_haltWord_iff.mpr ⟨htag, ha, hb, hrsv, himm⟩

/-- Only the tag of Halt decodes to Halt. -/
theorem tagField_of_decode_halt (h : decode w = .ok .halt) : tagField w = 0x05#8 := by
  obtain ⟨-, hvariant⟩ := decode_ok_cases h
  obtain ⟨htag, -⟩ : tagField w = 0x05#8 ∧ aField w = 0#8 ∧ bField w = 0#8 ∧ immField w = 0#64 := by
    simpa using hvariant
  exact htag

theorem decode_halt_iff : decode w = .ok .halt ↔ w = 0x05 where
  mp h := eq_haltWord_of_decode (tagField_of_decode_halt h) h
  mpr h := by rw [h]; decide

end

end Sys2Proof

namespace Sys2Proof.Machine

section
variable {s : State} {u v : UnitState} {i : Instr}

@[simp] theorem onOneUnit_jump (address : Word) (u : UnitState) : onOneUnit (.jump address) u = .ok (u.setPc address) :=
  rfl

@[simp] theorem onOneUnit_halt (u : UnitState) : onOneUnit .halt u = .ok u.clearRunning := rfl

/-- An instruction that succeeds on the driven unit gives the unit its result, replies ok and changes nothing else
(R86, R89). -/
theorem exec_commits (hw : i.wellFormed = true) (hu : s.units[s.target]? = some u) (h : onOneUnit i u = .ok v) :
    ∃ t, exec i s = .next t ∧ t.reply = .ok ∧ t.units[s.target]? = some v ∧ sameButUnit s.target s t :=
  ⟨_, exec_of_onOneUnit_ok hw hu h, rfl, setUnit_same s s.target _ hu, sameButUnit_commit ..⟩

end

/-- Settles O24: the row's words by their fields, then R120's result, which is the unit with its `pc` set. -/
theorem jumpFollowsItsRule : Obligations.JumpFollowsItsRule := by
  refine ⟨fun w => decode_of_jump_accepts, fun w s u htag hrow hu => ?illegal, fun s u address hu => ?success⟩
  case illegal =>
    exact present_of_decode_ne_ok (fun i hi => Bool.eq_false_iff.mp hrow (jump_accepts_of_decode htag hi)) hu
  case success =>
    obtain ⟨t, hexec, hreply, hv, hframe⟩ := exec_commits rfl hu (onOneUnit_jump address u)
    exact ⟨t, u.setPc address, hexec, hreply, hv, setPc_pc .., fun _ => setPc_reg .., setPc_running .., hframe⟩

/-- Settles O25: the one word by its fields, then R121's result, which is the unit with its running flag cleared. -/
theorem haltFollowsItsRule : Obligations.HaltFollowsItsRule := by
  refine ⟨fun w => decode_halt_iff, fun w s u htag hne hu => ?illegal, fun s u hu => ?success⟩
  case illegal =>
    exact present_of_decode_ne_ok (fun i hi => hne (eq_haltWord_of_decode htag hi)) hu
  case success =>
    obtain ⟨t, hexec, hreply, hv, hframe⟩ := exec_commits rfl hu (onOneUnit_halt u)
    exact ⟨t, u.clearRunning, hexec, hreply, hv, clearRunning_running .., clearRunning_pc ..,
      fun _ => clearRunning_reg .., hframe⟩

end Sys2Proof.Machine
end

section
/-! PROOFS. When an instruction has an invalid operand and what its report says, what an illegal word shows on the ports,
and the statements about the two errors of an execution (R132, R133). -/

namespace Sys2Proof.Machine

/-! ### The report of an instruction's invalid operands -/

section
variable {i : Instr} {r : Report}

/-- An instruction has a report exactly when one of its register indices names no register (R131, R133). -/
theorem exists_bad_index_iff_invalidOperands :
    (∃ n ∈ registerIndices i, Config.numRegs ≤ n) ↔ ∃ r, invalidOperands i = some r := by
  cases i with
  | loadImmediate reg value => simp [registerIndices, invalidOperands_loadImmediate_iff]
  | move dest src => simp [registerIndices, invalidOperands_move_iff]
  | add dest src => simp [registerIndices, invalidOperands_add_iff]
  | jump address => simp [registerIndices, invalidOperands]
  | halt => simp [registerIndices, invalidOperands]

/-- The two shapes of a report, by the instruction's register indices: one index that names no register, or two of which
at least one names none (R133). -/
theorem invalidOperands_some_cases (h : invalidOperands i = some r) :
    (∃ reg, registerIndices i = [reg] ∧ Config.numRegs ≤ reg ∧ r = reportOne reg) ∨
    (∃ dest src, registerIndices i = [dest, src] ∧ (Config.numRegs ≤ dest ∨ Config.numRegs ≤ src) ∧
      r = reportTwo dest src) := by
  cases i with
  | loadImmediate reg value => exact .inl ⟨reg, rfl, invalidOperands_loadImmediate_iff.mp h⟩
  | move dest src => exact .inr ⟨dest, src, rfl, invalidOperands_move_iff.mp h⟩
  | add dest src => exact .inr ⟨dest, src, rfl, invalidOperands_add_iff.mp h⟩
  | jump address => cases h
  | halt => cases h

/-- Every report of invalid operands marks at least one field (R133). -/
theorem report_marks_a_field (h : invalidOperands i = some r) : r.badA = true ∨ r.badB = true := by
  obtain ⟨reg, -, hbad, rfl⟩ | ⟨dest, src, -, hbad, rfl⟩ := invalidOperands_some_cases h
  · exact .inl (badIndex_iff.mpr hbad)
  · exact hbad.imp badIndex_iff.mpr badIndex_iff.mpr

/-- A report marks a field exactly when the instruction's index there names no register (R133). -/
theorem report_marks_bad_indices (h : invalidOperands i = some r) :
    (r.badA = true ↔ ∃ n, (registerIndices i)[0]? = some n ∧ Config.numRegs ≤ n) ∧
    (r.badB = true ↔ ∃ n, (registerIndices i)[1]? = some n ∧ Config.numRegs ≤ n) := by
  obtain ⟨reg, hindices, -, rfl⟩ | ⟨dest, src, hindices, -, rfl⟩ := invalidOperands_some_cases h
  · simp [hindices, reportOne, badIndex_iff]
  · simp [hindices, reportTwo, badIndex_iff]

/-- An instruction is well-formed exactly when each of its register indices has an encoding (R61). -/
theorem wellFormed_iff_indices_encodable : i.wellFormed = true ↔ ∀ n ∈ registerIndices i, encodableIndex n = true := by
  cases i <;> simp [Instr.wellFormed, registerIndices]

/-- An index that has an encoding keeps its value in the report's 8-bit field (R61, R133). -/
theorem encodableIndex_toNat {n : Nat} (h : encodableIndex n = true) : (BitVec.ofNat 8 n).toNat = n :=
  (BitVec.toNat_ofNat n 8).trans (Nat.mod_eq_of_lt (of_decide_eq_true h))

/-- A report carries the instruction's indices, and 0 for a field the instruction does not have (R133). -/
theorem report_carries_indices (hw : i.wellFormed = true) (h : invalidOperands i = some r) :
    (registerIndices i)[0]? = some r.idxA.toNat ∧ (registerIndices i)[1]?.getD 0 = r.idxB.toNat := by
  have hencodable := wellFormed_iff_indices_encodable.mp hw
  obtain ⟨reg, hindices, -, rfl⟩ | ⟨dest, src, hindices, -, rfl⟩ := invalidOperands_some_cases h
  · have hreg : encodableIndex reg = true := hencodable reg (by simp [hindices])
    simp only [hindices, reportOne, encodableIndex_toNat hreg]
    exact ⟨rfl, rfl⟩
  · have hdest : encodableIndex dest = true := hencodable dest (by simp [hindices])
    have hsrc : encodableIndex src = true := hencodable src (by simp [hindices])
    simp only [hindices, reportTwo, encodableIndex_toNat hdest, encodableIndex_toNat hsrc]
    exact ⟨rfl, rfl⟩

/-- An execution that replies InvalidRegister reports the instruction's invalid operands (R131, R133). -/
theorem invalidOperands_of_reply {s t : State} (h : exec i s = .next t)
    (hreply : t.reply = .error (.invalidRegister r)) : invalidOperands i = some r := by
  rw [exec_reply h] at hreply
  cases hi : invalidOperands i with
  | some r' => rw [hi] at hreply; cases hreply; rfl
  | none => rw [hi] at hreply; cases hreply

/-- InvalidRegister with the report `r` is raised exactly when `r` is the report of the invalid operands (R133). -/
theorem exec_raises_invalidRegister_iff {s : State} {u : UnitState} (hw : i.wellFormed = true)
    (hu : s.units[s.target]? = some u) :
    exec i s = .next (s.withReply (.error (.invalidRegister r))) ↔ invalidOperands i = some r :=
  ⟨fun h => invalidOperands_of_reply h rfl, exec_of_invalidOperands hw hu⟩

end

/-! ### An illegal word on the ports -/

/-- The error report of a word the decoder rejects (R84, R132). -/
theorem wordOut_of_decode_error {w : InstrWord} {e : Illegal} (h : decode w = .error e) : wordOut w = illegalOut := by
  simp only [wordOut, h]

/-! ### The statements -/

/-- Settles O29: the error is raised exactly when the instruction has a report of invalid operands, and that report
marks and carries the instruction's indices. -/
theorem invalidRegisterReportNamesEveryBadIndex : Obligations.InvalidRegisterReportNamesEveryBadIndex := by
  intro i s u hw hu
  constructor
  · simp only [exec_raises_invalidRegister_iff hw hu]
    exact exists_bad_index_iff_invalidOperands
  · intro t r h hreply
    have hi : invalidOperands i = some r := invalidOperands_of_reply h hreply
    have ht : t = s.withReply (.error (.invalidRegister r)) :=
      Host.Outcome.next.inj (h.symm.trans (exec_of_invalidOperands hw hu hi))
    obtain ⟨hbadA, hbadB⟩ := report_marks_bad_indices hi
    exact ⟨hreply ▸ ht, report_marks_a_field hi, hbadA, hbadB, report_carries_indices hw hi⟩

/-- Settles O30: a rejected word decodes to no instruction, so it is raised as it is presented and has the report of an
illegal word in its execute cycle. -/
theorem illegalWordRaisesIllegalInstruction : Obligations.IllegalWordRaisesIllegalInstruction := by
  intro w e hd
  constructor
  · intro s u hu
    exact present_of_decode_ne_ok (fun i hi => by cases hd.symm.trans hi) hu
  · rintro ins hrst hload hexec rfl
    rw [errorOut_execute hexec hrst hload, wordOut_of_decode_error hd]
    rfl

end Sys2Proof.Machine
end

section
/-! PROOFS. The lifecycle's `start` and `stop` (R142), and that no operation of the load-and-run contract reads or writes
the lifecycle (R143). -/

namespace Sys2Proof.Machine

/-! ### `start` and `stop` from each state -/

section
variable {s t : State}

theorem startHost_of_created (h : s.lifecycle = .created) :
    s.startHost = .next ((s.withLifecycle .running).withReply .ok) := by
  rw [State.startHost, h]
  rfl

theorem startHost_of_ne_created (h : s.lifecycle ≠ .created) : s.startHost = .refused .startNotCreated := by
  cases hl : s.lifecycle with
  | created => exact absurd hl h
  | running => rw [State.startHost, hl]
  | stopped => rw [State.startHost, hl]
  | error => rw [State.startHost, hl]

theorem stopHost_of_running (h : s.lifecycle = .running) :
    s.stopHost = .next ((s.withLifecycle .stopped).withReply .ok) := by
  rw [State.stopHost, h]
  rfl

theorem stopHost_of_ne_running (h : s.lifecycle ≠ .running) :
    s.stopHost = .next ((s.withLifecycle .error).withReply (.error .illegalTransition)) := by
  cases hl : s.lifecycle with
  | running => exact absurd hl h
  | created => rw [State.stopHost, hl]; rfl
  | stopped => rw [State.stopHost, hl]; rfl
  | error => rw [State.stopHost, hl]; rfl

theorem startHost_units (h : s.startHost = .next t) : t.units = s.units := by
  obtain ⟨-, rfl⟩ := startHost_cases h
  rfl

theorem stopHost_units (h : s.stopHost = .next t) : t.units = s.units := by
  obtain ⟨-, rfl⟩ | ⟨-, rfl⟩ := stopHost_cases h <;> rfl

end

/-! ### Operations that commute with a replacement of the lifecycle -/

section
variable (s : State) (l : Lifecycle)

@[simp] theorem withLifecycle_units : (s.withLifecycle l).units = s.units := rfl
@[simp] theorem withLifecycle_target : (s.withLifecycle l).target = s.target := rfl
@[simp] theorem withLifecycle_feedStops : (s.withLifecycle l).feedStops = s.feedStops := rfl

theorem loadUnit_withLifecycle (k : Nat) (u : UnitState) (start : Word) :
    (s.withLifecycle l).loadUnit k u start = (s.loadUnit k u start).withLifecycle l := rfl

theorem onUnit_withLifecycle (k : Nat) (f : UnitState → Except ErrorKind UnitState) :
    (s.withLifecycle l).onUnit k f = mapNext (fun t => t.withLifecycle l) (s.onUnit k f) := by
  cases hu : s.units[k]? with
  | none =>
    rw [onUnit_none hu, onUnit_none (s := s.withLifecycle l) hu]
    rfl
  | some u =>
    rw [onUnit_some hu, onUnit_some (s := s.withLifecycle l) hu]
    cases f u <;> rfl

theorem exec_withLifecycle (i : Instr) :
    exec i (s.withLifecycle l) = mapNext (fun t => t.withLifecycle l) (exec i s) := by
  cases hw : i.wellFormed with
  | true => simp only [exec_wellFormed hw, withLifecycle_target, onUnit_withLifecycle]
  | false => simp only [exec_illFormed hw, mapNext]

theorem present_withLifecycle (p : Presented) :
    (s.withLifecycle l).present p = mapNext (fun t => t.withLifecycle l) (s.present p) := by
  cases hp : p.instr with
  | ok i => simp only [present_decoded hp, exec_withLifecycle]
  | error e => simp only [State.present, hp, withLifecycle_target, onUnit_withLifecycle]

/-- The loop of the driver (R90): each instruction commutes, and the stop test does not read the lifecycle. -/
theorem feedAll_withLifecycle (instructions : List Presented) :
    State.feedAll instructions (s.withLifecycle l) =
      mapNext (fun t => t.withLifecycle l) (State.feedAll instructions s) := by
  induction instructions generalizing s with
  | nil => rfl
  | cons p rest ih =>
    rw [State.feedAll, State.feedAll, present_withLifecycle]
    cases s.present p with
    | fault r => rfl
    | refused r => rfl
    | next t =>
      cases hstop : t.feedStops with
      | true => simp [mapNext, hstop]
      | false => simp [mapNext, hstop, ih]

theorem loadAndRun_withLifecycle (k : Nat) (instructions : List Presented) (start : Word) :
    (s.withLifecycle l).loadAndRun k instructions start =
      mapNext (fun t => t.withLifecycle l) (s.loadAndRun k instructions start) := by
  by_cases hunits : s.units = []
  · rw [loadAndRun_noUnits hunits, loadAndRun_noUnits (s := s.withLifecycle l) hunits]
    rfl
  · cases hu : s.units[k]? with
    | none =>
      rw [loadAndRun_missing hunits hu, loadAndRun_missing (s := s.withLifecycle l) hunits hu]
      rfl
    | some u =>
      rw [loadAndRun_some hu, loadAndRun_some (s := s.withLifecycle l) hu, loadUnit_withLifecycle,
        feedAll_withLifecycle]

end

/-! ### The statements -/

/-- Settles O45: `start` and `stop` keep the list of units, and the contract commutes with any replacement of the
lifecycle. -/
theorem lifecycleIsIndependentOfUnits : Obligations.LifecycleIsIndependentOfUnits :=
  ⟨fun _ _ h => h.elim startHost_units stopHost_units,
    fun s k instructions start l => loadAndRun_withLifecycle s l k instructions start⟩

/-- Settles O50: between runs the step performs the operation, on the lifecycle as it was before the step. -/
theorem lifecycleFollowsItsTransitions : Obligations.LifecycleFollowsItsTransitions := by
  refine ⟨fun _ _ => rfl, fun s rest hf ha => ?start, fun s rest hf ha => ?stop⟩
  case start =>
    have hstep : step s = (s.withAgenda rest).startHost := step_eq_perform hf ha
    rw [hstep]
    exact ⟨fun h => startHost_of_created h, fun h => startHost_of_ne_created h⟩
  case stop =>
    have hstep : step s = (s.withAgenda rest).stopHost := step_eq_perform hf ha
    rw [hstep]
    exact ⟨fun h => stopHost_of_running h, fun h => stopHost_of_ne_running h⟩

end Sys2Proof.Machine
end

section
/-! PROOFS. Construction of a host and the reset of one unit (R160). -/

namespace Sys2Proof.Machine

/-! ### The constructed host -/

section
variable {numUnits memSize k : Nat}

/-- Every unit of a constructed host is fresh (R39). -/
theorem construct_unit_eq_fresh {u : UnitState} (hu : (State.construct numUnits memSize).units[k]? = some u) :
    u = UnitState.fresh :=
  List.eq_of_mem_replicate (List.mem_of_getElem? hu)

theorem construct_unit_of_lt (hk : k < numUnits) :
    (State.construct numUnits memSize).units[k]? = some UnitState.fresh :=
  List.getElem?_replicate_of_lt hk

/-- Every valid address of a constructed region reads 0: no cell is listed (R39, R40). -/
theorem construct_read_of_lt {a : Word} (ha : a.toNat < memSize) :
    (State.construct numUnits memSize).mem.read a = .ok 0 := by
  have hbyte : (State.construct numUnits memSize).mem.byteAt a = 0 := rfl
  rw [read_of_lt (m := (State.construct numUnits memSize).mem) ha, hbyte]

end

/-! ### The reset of one unit -/

/-- The reset row of the cycle table (R82): `rst` wins over every other input of the cycle. -/
theorem unitCycle_reset {s : State} {k : Nat} {u : UnitState} {ins : UnitIn} (hu : s.units[k]? = some u)
    (hrst : ins.rst = true) :
    s.unitCycle k ins =
      .next (((s.withTarget k).setUnit k UnitState.fresh).withReply (.unitPorts (u.outputs ins))) := by
  simp [State.unitCycle, State.edge, mapNext, hu, hrst]

/-! ### The statement -/

/-- Settles O1: construction makes fresh units only, and a reset puts the fresh unit construction makes at index `k` and
leaves every other unit, the memory and the lifecycle. -/
theorem constructionAndUnitReset : Obligations.ConstructionAndUnitReset := by
  refine ⟨fun numUnits memSize => ?construction, fun s k u ins hu hrst => ?unitReset⟩
  case construction =>
    refine ⟨List.length_replicate, fun k u hu => ?_, rfl, fun _ ha => construct_read_of_lt ha, rfl⟩
    obtain rfl := construct_unit_eq_fresh hu
    exact ⟨fun _ => fresh_reg _, fresh_pc, fresh_running⟩
  case unitReset =>
    obtain ⟨hk, -⟩ := List.getElem?_eq_some_iff.mp hu
    have hfresh := setUnit_same (s.withTarget k) k UnitState.fresh hu
    exact ⟨_, UnitState.fresh, unitCycle_reset hu hrst, hfresh, fun _ => fresh_reg _, fresh_pc, fresh_running,
      hfresh.trans (construct_unit_of_lt hk).symm, fun _ hj => setUnit_other (s.withTarget k) k _ hj,
      sameBytes_of_mem_eq rfl, rfl⟩

end Sys2Proof.Machine
end

section
/-! PROOFS. The decoder and the encoder as numbers, that they are inverse to each other, and the rows of the opcode map as
a partition of the legal words (R62 to R69). -/

namespace Sys2Proof

/-! ### What the decoder accepts, as an equivalence -/

section
variable {w : InstrWord} {i : Instr}

/-- R68's row of Halt accepts the one word of R121. -/
theorem halt_accepts_iff : Instr.halt.row.accepts w = true ↔ w = 0x05 := by
  have hmask : Instr.halt.row.mask = BitVec.allOnes 128 := by decide
  rw [OpcodeRow.accepts, hmask, BitVec.and_allOnes, beq_iff_eq]
  rfl

/-- R66 as an equivalence, in the fields of the word. -/
theorem decode_ok_iff : decode w = .ok i ↔
    rsvField w = 0#40 ∧
    ((tagField w = 0x01#8 ∧ bField w = 0#8 ∧ i = .loadImmediate (aField w).toNat (immField w)) ∨
     (tagField w = 0x02#8 ∧ immField w = 0#64 ∧ i = .move (aField w).toNat (bField w).toNat) ∨
     (tagField w = 0x03#8 ∧ immField w = 0#64 ∧ i = .add (aField w).toNat (bField w).toNat) ∨
     (tagField w = 0x04#8 ∧ aField w = 0#8 ∧ bField w = 0#8 ∧ i = .jump (immField w)) ∨
     (tagField w = 0x05#8 ∧ aField w = 0#8 ∧ bField w = 0#8 ∧ immField w = 0#64 ∧ i = .halt)) where
  mp := decode_ok_cases
  mpr := by
    rintro ⟨hrsv, ⟨htag, hb, rfl⟩ | ⟨htag, himm, rfl⟩ | ⟨htag, himm, rfl⟩ | ⟨htag, ha, hb, rfl⟩ |
      ⟨htag, ha, hb, himm, rfl⟩⟩
    · exact decode_of_loadImmediate_accepts (loadImmediate_accepts_iff.mpr ⟨htag, hb, hrsv⟩)
    · exact decode_of_move_accepts (move_accepts_iff.mpr ⟨htag, hrsv, himm⟩)
    · exact decode_of_add_accepts (add_accepts_iff.mpr ⟨htag, hrsv, himm⟩)
    · exact decode_of_jump_accepts (jump_accepts_iff.mpr ⟨htag, ha, hb, hrsv⟩)
    · exact decode_halt_iff.mpr (eq_haltWord_iff.mpr ⟨htag, ha, hb, hrsv, himm⟩)

/-- Field `imm` as the word of the number above bit 63 (R62). -/
theorem immField_eq_ofNat (w : InstrWord) : immField w = BitVec.ofNat 64 (w.toNat / 2 ^ 64) := by
  rw [← immField_toNat, BitVec.ofNat_toNat, BitVec.setWidth_eq]

/-- The fields `a` and `b` are adjacent (R62), so that both are zero when bits [23:8] are. -/
theorem indexFields_eq_zero_iff : (aField w = 0#8 ∧ bField w = 0#8) ↔ w.toNat / 2 ^ 8 % 2 ^ 16 = 0 := by
  simp only [BitVec.toNat_eq, aField_toNat, bField_toNat, BitVec.toNat_ofNat]
  omega

/-- Settles O16: each field of the word is a quotient and remainder of its number. -/
theorem decodeReadsTheFields : Obligations.DecodeReadsTheFields := by
  intro w i
  rw [decode_ok_iff, ← and_assoc (a := aField w = 0#8) (b := bField w = 0#8),
    ← and_assoc (a := aField w = 0#8) (b := bField w = 0#8), indexFields_eq_zero_iff, immField_eq_ofNat]
  have himm : BitVec.ofNat 64 (w.toNat / 2 ^ 64) = 0#64 ↔ w.toNat / 2 ^ 64 = 0 := by
    rw [← immField_eq_ofNat, BitVec.toNat_eq, immField_toNat, BitVec.toNat_ofNat, Nat.zero_mod]
  rw [himm]
  simp only [BitVec.toNat_eq, tagField_toNat, aField_toNat, bField_toNat, rsvField_toNat, BitVec.toNat_ofNat,
    Nat.zero_mod, Nat.reducePow, Nat.reduceMod]

end

/-! ### The encoder as numbers -/

/-- An index in its 8-bit field, moved `k` bits up (R67). -/
theorem indexBits_shift_toNat {n k : Nat} (hn : n < 256) (hk : k ≤ 16) :
    (indexBits n <<< k).toNat = n * 2 ^ k := by
  have hpow : 2 ^ k ≤ 2 ^ 16 := Nat.pow_le_pow_right (by decide) hk
  have hlt : n * 2 ^ k < 256 * 2 ^ 16 := Nat.mul_lt_mul_of_lt_of_le hn hpow (by decide)
  rw [BitVec.toNat_shiftLeft, Nat.shiftLeft_eq, indexBits, BitVec.toNat_setWidth, BitVec.toNat_ofNat,
    Nat.mod_eq_of_lt (show n < 2 ^ 8 from hn), Nat.mod_eq_of_lt (show n < 2 ^ 128 by omega),
    Nat.mod_eq_of_lt (by omega)]

theorem encode_loadImmediate_toNat {reg : Nat} (value : Word) (hreg : reg < 256) :
    (encode (.loadImmediate reg value)).toNat = value.toNat * 2 ^ 64 + reg * 2 ^ 8 + 1 := by
  have hindex := indexBits_shift_toNat hreg (show 8 ≤ 16 by decide)
  have hhigh : (immBits value ||| indexBits reg <<< 8).toNat = value.toNat * 2 ^ 64 + reg * 2 ^ 8 := by
    rw [or_toNat_of_low (k := 64) (by rw [immBits_toNat]; omega) (by rw [hindex]; omega), immBits_toNat, hindex]
  rw [encode, or_toNat_of_low (k := 8) (by rw [hhigh]; omega) (by decide), hhigh]
  rfl

/-- The word of an instruction with two register operands (R67). -/
theorem twoIndices_toNat {dest src : Nat} {tag : InstrWord} (hdest : dest < 256) (hsrc : src < 256)
    (htag : tag.toNat < 2 ^ 8) :
    ((indexBits src <<< 16) ||| (indexBits dest <<< 8) ||| tag).toNat = src * 2 ^ 16 + dest * 2 ^ 8 + tag.toNat := by
  have hd := indexBits_shift_toNat hdest (show 8 ≤ 16 by decide)
  have hs := indexBits_shift_toNat hsrc (le_refl 16)
  have hhigh : (indexBits src <<< 16 ||| indexBits dest <<< 8).toNat = src * 2 ^ 16 + dest * 2 ^ 8 := by
    rw [or_toNat_of_low (k := 16) (by rw [hs]; omega) (by rw [hd]; omega), hs, hd]
  rw [or_toNat_of_low (k := 8) (by rw [hhigh]; omega) htag, hhigh]

theorem encode_move_toNat {dest src : Nat} (hdest : dest < 256) (hsrc : src < 256) :
    (encode (.move dest src)).toNat = src * 2 ^ 16 + dest * 2 ^ 8 + 2 :=
  twoIndices_toNat hdest hsrc (by decide)

theorem encode_add_toNat {dest src : Nat} (hdest : dest < 256) (hsrc : src < 256) :
    (encode (.add dest src)).toNat = src * 2 ^ 16 + dest * 2 ^ 8 + 3 :=
  twoIndices_toNat hdest hsrc (by decide)

theorem encode_jump_toNat (address : Word) : (encode (.jump address)).toNat = address.toNat * 2 ^ 64 + 4 := by
  rw [encode, or_toNat_of_low (k := 64) (by rw [immBits_toNat]; omega) (by decide), immBits_toNat]
  rfl

/-- Settles O15: the parts of a word share no bit, so that they join as a sum. -/
theorem encodeIsItsFormula : Obligations.EncodeIsItsFormula :=
  ⟨fun _ value hreg => encode_loadImmediate_toNat value hreg,
    fun _ _ hdest hsrc => ⟨encode_move_toNat hdest hsrc, encode_add_toNat hdest hsrc⟩,
    encode_jump_toNat, rfl⟩

/-! ### The two are inverse to each other -/

theorem encodableIndex_iff {n : Nat} : encodableIndex n = true ↔ n < 256 := decide_eq_true_iff

/-- The immediate operand of an encoded word, whatever stands below bit 64. -/
theorem ofNat_imm_add_low (v : Word) {low : Nat} (h : low < 2 ^ 64) :
    BitVec.ofNat 64 ((v.toNat * 2 ^ 64 + low) / 2 ^ 64) = v := by
  rw [show (v.toNat * 2 ^ 64 + low) / 2 ^ 64 = v.toNat by omega, BitVec.ofNat_toNat, BitVec.setWidth_eq]

theorem decode_encode {i : Instr} (h : i.wellFormed = true) : decode (encode i) = .ok i := by
  rw [decodeReadsTheFields]
  cases i with
  | loadImmediate reg value =>
    have hreg : reg < 256 := encodableIndex_iff.mp h
    rw [encode_loadImmediate_toNat value hreg, Nat.add_assoc, ofNat_imm_add_low value (by omega)]
    refine ⟨by omega, .inl ⟨by omega, by omega, ?_⟩⟩
    rw [show (value.toNat * 2 ^ 64 + (reg * 2 ^ 8 + 1)) / 2 ^ 8 % 2 ^ 8 = reg by omega]
  | move dest src =>
    simp only [Instr.wellFormed, Bool.and_eq_true, encodableIndex_iff] at h
    obtain ⟨hdest, hsrc⟩ := h
    rw [encode_move_toNat hdest hsrc]
    refine ⟨by omega, .inr (.inl ⟨by omega, by omega, ?_⟩)⟩
    rw [show (src * 2 ^ 16 + dest * 2 ^ 8 + 2) / 2 ^ 8 % 2 ^ 8 = dest by omega,
      show (src * 2 ^ 16 + dest * 2 ^ 8 + 2) / 2 ^ 16 % 2 ^ 8 = src by omega]
  | add dest src =>
    simp only [Instr.wellFormed, Bool.and_eq_true, encodableIndex_iff] at h
    obtain ⟨hdest, hsrc⟩ := h
    rw [encode_add_toNat hdest hsrc]
    refine ⟨by omega, .inr (.inr (.inl ⟨by omega, by omega, ?_⟩))⟩
    rw [show (src * 2 ^ 16 + dest * 2 ^ 8 + 3) / 2 ^ 8 % 2 ^ 8 = dest by omega,
      show (src * 2 ^ 16 + dest * 2 ^ 8 + 3) / 2 ^ 16 % 2 ^ 8 = src by omega]
  | jump address =>
    rw [encode_jump_toNat, ofNat_imm_add_low address (by decide)]
    exact ⟨by omega, .inr (.inr (.inr (.inl ⟨by omega, by omega, rfl⟩)))⟩
  | halt => decide

/-- A decoded index fills an 8-bit field, so it has an encoding (R61, R62). -/
theorem wellFormed_of_decode {w : InstrWord} {i : Instr} (h : decode w = .ok i) : i.wellFormed = true := by
  have hfield (f : BitVec 8) : encodableIndex f.toNat = true := encodableIndex_iff.mpr f.isLt
  obtain ⟨-, ⟨-, -, rfl⟩ | ⟨-, -, rfl⟩ | ⟨-, -, rfl⟩ | ⟨-, -, -, rfl⟩ | ⟨-, -, -, -, rfl⟩⟩ := decode_ok_cases h <;>
    simp [Instr.wellFormed, hfield]

theorem encode_decode {w : InstrWord} {i : Instr} (h : decode w = .ok i) : encode i = w := by
  have hlt : w.toNat < 2 ^ 128 := w.isLt
  have himm : (BitVec.ofNat 64 (w.toNat / 2 ^ 64)).toNat = w.toNat / 2 ^ 64 := by
    rw [← immField_eq_ofNat, immField_toNat]
  have hindex (n : Nat) : n % 2 ^ 8 < 256 := Nat.mod_lt n (by decide)
  apply BitVec.eq_of_toNat_eq
  obtain ⟨hrsv, ⟨htag, hb, rfl⟩ | ⟨htag, himm0, rfl⟩ | ⟨htag, himm0, rfl⟩ | ⟨htag, hab, rfl⟩ |
    ⟨htag, hab, himm0, rfl⟩⟩ := (decodeReadsTheFields w i).mp h
  · rw [encode_loadImmediate_toNat _ (hindex _), himm]
    omega
  · rw [encode_move_toNat (hindex _) (hindex _)]
    omega
  · rw [encode_add_toNat (hindex _) (hindex _)]
    omega
  · rw [encode_jump_toNat, himm]
    omega
  · rw [show (encode .halt).toNat = 5 from rfl]
    omega

/-- Settles O14: the encoder's sums and the decoder's quotients undo each other. -/
theorem decodeInvertsEncode : Obligations.DecodeInvertsEncode :=
  ⟨fun _ h => decode_encode h, fun _ _ h => ⟨wellFormed_of_decode h, encode_decode h⟩⟩

/-! ### The opcode map -/

section
variable {w : InstrWord} {r : OpcodeRow}

/-- The row of an instruction's variant is one of the map's (R68). -/
theorem row_mem_opcodeMap (i : Instr) : i.row ∈ opcodeMap := by
  cases i <;> simp [opcodeMap, Instr.row]

/-- The row of a legal word's instruction accepts it (R68, R69). -/
theorem row_accepts_of_decode {i : Instr} (h : decode w = .ok i) : i.row.accepts w = true := by
  obtain ⟨-, ⟨htag, -, rfl⟩ | ⟨htag, -, rfl⟩ | ⟨htag, -, rfl⟩ | ⟨htag, -, -, rfl⟩ | ⟨-, -, -, -, rfl⟩⟩ :=
    decode_ok_cases h
  · exact loadImmediate_accepts_of_decode htag h
  · exact move_accepts_of_decode htag h
  · exact add_accepts_of_decode htag h
  · exact jump_accepts_of_decode htag h
  · exact halt_accepts_iff.mpr (decode_halt_iff.mp h)

/-- A word that a row of the map accepts is legal, and carries the row's tag (R64, R68). -/
theorem legal_of_accepts (hr : r ∈ opcodeMap) (h : r.accepts w = true) :
    (∃ i, decode w = .ok i) ∧ tagField w = tagField r.pattern := by
  simp only [opcodeMap, List.mem_cons, List.not_mem_nil, or_false] at hr
  obtain rfl | rfl | rfl | rfl | rfl := hr
  · exact ⟨⟨_, decode_of_loadImmediate_accepts h⟩, (loadImmediate_accepts_iff.mp h).1⟩
  · exact ⟨⟨_, decode_of_move_accepts h⟩, (move_accepts_iff.mp h).1⟩
  · exact ⟨⟨_, decode_of_add_accepts h⟩, (add_accepts_iff.mp h).1⟩
  · exact ⟨⟨_, decode_of_jump_accepts h⟩, (jump_accepts_iff.mp h).1⟩
  · exact ⟨⟨_, decode_halt_iff.mpr (halt_accepts_iff.mp h)⟩, halt_accepts_iff.mp h ▸ rfl⟩

end

/-- Settles O17: an accepted word carries its row's tag, and the tags of two rows differ. -/
theorem opcodeMapPartitionsLegalWords : Obligations.OpcodeMapPartitionsLegalWords := by
  refine ⟨fun w => ⟨?legal, fun ⟨r, hr, h⟩ => (legal_of_accepts hr h).1⟩, fun w i => row_accepts_of_decode, ?disjoint⟩
  case legal =>
    rintro ⟨i, hi⟩
    exact ⟨i.row, row_mem_opcodeMap i, row_accepts_of_decode hi⟩
  case disjoint =>
    have htags : opcodeMap.Pairwise fun r q => tagField r.pattern ≠ tagField q.pattern := by decide
    refine htags.imp_of_mem fun hr hq hne w ⟨hw, hw'⟩ => hne ?_
    exact (legal_of_accepts hr hw).2.symm.trans (legal_of_accepts hq hw').2

/-- Settles O19: each word evaluates. -/
theorem exampleWordsDecode : Obligations.ExampleWordsDecode := by
  unfold Obligations.ExampleWordsDecode
  decide

end Sys2Proof
end

section
/-! PROOFS. Each row of a unit's cycle table as an equation (R82), how an execution ends when its unit exists, and the
statements about what a step takes from the agenda or from a run on the ports. -/

namespace Sys2Proof.Machine

@[simp] theorem withTarget_self (s : State) : s.withTarget s.target = s := rfl

/-! ### The rows of the cycle table -/

section
variable {s : State} {k : Nat} {u : UnitState} {ins : UnitIn}

theorem unitCycle_missing (hk : s.units[k]? = none) : s.unitCycle k ins = .refused .noSuchUnit := by
  simp only [State.unitCycle, hk]

theorem unitCycle_idle (hu : s.units[k]? = some u) (hrst : ins.rst = false) (hload : ins.loadValid = false)
    (hexec : ins.execValid = false) :
    s.unitCycle k ins = .next ((s.withTarget k).withReply (.unitPorts (u.outputs ins))) := by
  simp [State.unitCycle, State.edge, mapNext, hu, hrst, hload, hexec]

theorem unitCycle_execute (hu : s.units[k]? = some u) (hrst : ins.rst = false) (hload : ins.loadValid = false)
    (hexec : ins.execValid = true) :
    s.unitCycle k ins = mapNext (fun t => t.withReply (.unitPorts (u.outputs ins)))
      ((s.withTarget k).present (.word ins.execInstr)) := by
  simp [State.unitCycle, State.edge, hu, hrst, hload, hexec]

theorem unitCycle_loadWithExecute (hu : s.units[k]? = some u) (hrst : ins.rst = false) (hload : ins.loadValid = true)
    (hexec : ins.execValid = true) : s.unitCycle k ins = .refused .loadWithExecute := by
  simp [State.unitCycle, State.edge, mapNext, hu, hrst, hload, hexec]

end

/-! ### An execution on a unit that exists -/

section
variable {s : State} {u : UnitState}

/-- A presented word on a unit that exists, beside the error that the word's report stands for (R84, R89): the error is
raised, or the unit gets the result of the word's instruction. -/
theorem present_word_cases (w : InstrWord) (hu : s.units[s.target]? = some u) :
    (∃ e, (wordOut w).raised w = some e ∧ s.present (.word w) = .next (s.withReply (.error e))) ∨
    (∃ v, (wordOut w).raised w = none ∧ s.present (.word w) = .next ((s.setUnit s.target v).withReply .ok)) := by
  have legal {i : Instr} (hd : decode w = .ok i) : s.present (.word w) = exec i s :=
    present_decoded (by simp only [Presented.instr, hd])
  obtain ⟨e, hd, hout⟩ | ⟨i, r, hd, hi, hout⟩ | ⟨i, hd, hi, hout⟩ := wordOut_cases w
  · refine .inl ⟨.illegalInstruction w, by rw [hout]; rfl, present_of_decode_ne_ok (fun i hi => ?_) hu⟩
    cases hd.symm.trans hi
  · refine .inl ⟨.invalidRegister r, by rw [hout]; rfl, ?_⟩
    rw [legal hd, exec_of_invalidOperands (wellFormed_of_decode hd) hu hi]
  · obtain ⟨v, hv⟩ := onOneUnit_of_validOperands hi u
    exact .inr ⟨v, by rw [hout]; rfl, by rw [legal hd, exec_of_onOneUnit_ok (wellFormed_of_decode hd) hu hv]⟩

/-- A report stands for no error exactly when its status is `00` (R84). -/
theorem raised_eq_none_iff {o : ErrorOut} {w : InstrWord} : o.raised w = none ↔ o.status = 0b00#2 := by
  unfold ErrorOut.raised
  split_ifs <;> simp [*]

/-- Presenting a word to a unit that exists answers a next state (R130: an error is an answer too). -/
theorem present_word_next (w : InstrWord) (hu : s.units[s.target]? = some u) :
    ∃ t, s.present (.word w) = .next t := by
  obtain ⟨_, -, h⟩ | ⟨_, -, h⟩ := present_word_cases w hu <;> exact ⟨_, h⟩

end

/-- A reply changes no unit. -/
theorem sameButUnit_withReply (k : Nat) (s : State) (r : Reply) : sameButUnit k s (s.withReply r) :=
  ⟨rfl, fun _ _ => rfl, sameBytes_of_mem_eq rfl, rfl, rfl, rfl, rfl⟩

/-- Settles O36: the step performs the cycle, and each clause is a row of the table. -/
theorem unitCycleFollowsItsTable : Obligations.UnitCycleFollowsItsTable := by
  rintro s s' k u ins rest hf ha hu rfl
  have hstep : step s = (s.withAgenda rest).unitCycle k ins := step_eq_perform hf ha
  replace hu : (s.withAgenda rest).units[k]? = some u := hu
  rw [hstep]
  refine ⟨fun hrst => ?reset, fun hrst hload hexec => ?idle, fun hrst hload hexec => ?load,
    fun hrst hload hexec => ?execute, unitCycle_loadWithExecute hu⟩
  case reset =>
    exact ⟨_, unitCycle_reset hu hrst, setUnit_same (s.withAgenda rest) k _ hu, sameButUnit_commit _ k _ _⟩
  case idle =>
    exact ⟨_, unitCycle_idle hu hrst hload hexec, rfl, sameButUnit_withReply k _ _⟩
  case load =>
    exact ⟨_, u.load ins.loadAddr, unitCycle_load hu hrst hload hexec, setUnit_same (s.withAgenda rest) k _ hu,
      load_pc .., load_running .., fun _ => load_reg .., sameButUnit_commit _ k _ _⟩
  case execute =>
    obtain ⟨t, ht⟩ := present_word_next (s := (s.withAgenda rest).withTarget k) ins.execInstr hu
    exact ⟨t, ht, by rw [unitCycle_execute hu hrst hload hexec, ht]; rfl⟩

/-- Settles O38: in each allowed row the reply is the outputs of the unit as it was before the edge. -/
theorem observationShowsTheCommittedState : Obligations.ObservationShowsTheCommittedState := by
  intro s k u ins hu hallowed
  suffices h : ∃ t, s.unitCycle k ins = .next t ∧ t.reply = .unitPorts (u.outputs ins) by
    obtain ⟨t, ht, hreply⟩ := h
    exact ⟨t, _, ht, hreply, rfl, rfl, rfl⟩
  cases hrst : ins.rst with
  | true => exact ⟨_, unitCycle_reset hu hrst, rfl⟩
  | false =>
    cases hload : ins.loadValid with
    | true =>
      have hexec : ins.execValid = false := by simpa [hrst, hload] using hallowed
      exact ⟨_, unitCycle_load hu hrst hload hexec, rfl⟩
    | false =>
      cases hexec : ins.execValid with
      | true =>
        obtain ⟨t, ht⟩ := present_word_next (s := s.withTarget k) ins.execInstr hu
        exact ⟨_, by rw [unitCycle_execute hu hrst hload hexec, ht]; rfl, rfl⟩
      | false => exact ⟨_, unitCycle_idle hu hrst hload hexec, rfl⟩

/-- Settles O33: nothing is presented to a unit that does not exist, and it has no ports. -/
theorem missingUnitIsRefused : Obligations.MissingUnitIsRefused := by
  refine ⟨fun s p htarget hencodable => ?present, fun s k ins hk => unitCycle_missing (List.getElem?_eq_none hk)⟩
  case present =>
    have hnone : s.units[s.target]? = none := List.getElem?_eq_none htarget
    cases hp : p.instr with
    | ok i => rw [present_decoded hp, exec_wellFormed (hencodable i hp), onUnit_none hnone]
    | error e => simp only [State.present, hp, onUnit_none hnone]

/-! ### The next operation, instruction or cycle -/

/-- A step of a run in progress (R90, R96). -/
theorem step_eq_runStep {s : State} {run : Feed} (hf : s.feed = some run) : step s = s.runStep run := by
  rw [step, hf]

/-- A cycle of a run on the ports that presents a word. -/
theorem unitCycle_slot_word {s : State} {slot : PortSlot} {w : InstrWord} {u : UnitState} (hw : slot.word = some w)
    (hu : s.units[s.target]? = some u) :
    s.unitCycle s.target slot.ins =
      mapNext (fun t => t.withReply (.unitPorts (u.outputs slot.ins))) (s.present (.word w)) := by
  obtain ⟨hrst, hload, hexec, hinstr⟩ := slot_ins slot
  rw [unitCycle_execute hu hrst hload (by rw [hexec, hw]; rfl), hinstr w hw, withTarget_self]

/-- An idle cycle of a run on the ports. -/
theorem unitCycle_slot_idle {s : State} {slot : PortSlot} {u : UnitState} (hw : slot.word = none)
    (hu : s.units[s.target]? = some u) :
    s.unitCycle s.target slot.ins = .next (s.withReply (.unitPorts (u.outputs slot.ins))) := by
  obtain ⟨hrst, hload, hexec, -⟩ := slot_ins slot
  rw [unitCycle_idle hu hrst hload (by rw [hexec, hw]; rfl), withTarget_self]

theorem mapNext_mapNext (f g : State → State) (o : Outcome) : mapNext f (mapNext g o) = mapNext (fun s => f (g s)) o := by
  cases o <;> rfl

/-- Settles O51: presenting a word is executing what it decodes to, in each of the four places a step takes it from. -/
theorem stepRunsTheDecodedInstruction : Obligations.StepRunsTheDecodedInstruction := by
  intro s k u w i hd
  have hpresent (s : State) : s.present (.word w) = exec i s := present_decoded (by simp only [Presented.instr, hd])
  refine ⟨fun rest hf ha => ?host, fun rest hf => ?feed, fun ins rest hf ha hu hrst hload hexec hinstr => ?cycle,
    fun slot rest hf hw hu => ?slot⟩
  case host =>
    rw [step_eq_perform hf ha]
    exact hpresent _
  case feed =>
    rw [step_eq_runStep hf, ← hpresent]
    rfl
  case cycle =>
    rw [step_eq_perform hf ha, ← hpresent, ← hinstr]
    exact unitCycle_execute hu hrst hload hexec
  case slot =>
    rw [step_eq_runStep hf, ← hpresent, ← mapNext_mapNext (State.afterSlot slot rest), ← unitCycle_slot_word hw hu]
    rfl

/-- Settles O52: the word is placed at the head of the agenda, or of what the run in progress has left. -/
theorem placedWordIsPresentedNext : Obligations.PlacedWordIsPresentedNext := by
  intro s w
  have hplace : s.withFetchWord 128 w.toNat = s.placeNext w := by
    rw [State.withFetchWord, Nat.mod_eq_of_lt w.isLt, BitVec.ofNat_toNat, BitVec.setWidth_eq]
  rw [hplace]
  refine ⟨fun hf => ?host, fun rest hf => ?feed, fun rest hf => ⟨{ word := some w }, rfl, ?ports⟩⟩
  case host =>
    have hagenda : s.placeNext w = s.withAgenda (.execute s.target (.word w) :: s.agenda) := by
      simp only [State.placeNext, State.withAgenda, hf]
    rw [hagenda]
    exact step_eq_perform (s := s.withAgenda (.execute s.target (.word w) :: s.agenda)) hf rfl
  case feed => rw [State.placeNext, hf]
  case ports => rw [State.placeNext, hf]

/-- Settles O53: a step between runs performs the oldest operation, and `perform` gives each operation its rule. -/
theorem hostPerformsItsAgendaInOrder : Obligations.HostPerformsItsAgendaInOrder := by
  intro s hf
  constructor
  · intro ha
    rw [step, hf]
    simp only [State.hostStep, ha]
  · intro op rest ha
    rw [step_eq_perform hf ha]
    cases op <;> rfl

/-! ### The stop rule on the ports (R96) -/

/-- Awaiting the rest of the cycles goes on with the run. -/
theorem awaitSlots_goesOn (rest : List PortSlot) (s : State) : goesOn rest (s.awaitSlots rest) := by
  cases rest with
  | nil => exact ⟨fun _ => ⟨rfl, rfl⟩, fun h => absurd rfl h⟩
  | cons slot rest => exact ⟨(nomatch ·), fun _ => rfl⟩

theorem targetRunning_eq {s : State} {v : UnitState} (h : s.units[s.target]? = some v) :
    s.targetRunning = v.running := by
  simp only [State.targetRunning, h]

/-- A cycle that presents a word reports the word (R84). -/
theorem errorOut_slot {slot : PortSlot} {w : InstrWord} (hw : slot.word = some w) :
    errorOut slot.ins = wordOut w := by
  obtain ⟨hrst, hload, hexec, hinstr⟩ := slot_ins slot
  rw [errorOut_execute (by rw [hexec, hw]; rfl) hrst hload, hinstr w hw]

/-- An execution that a run on the ports reports as an error ends the run with that error. -/
theorem portStep_error {s : State} {slot : PortSlot} {rest : List PortSlot} {u : UnitState} {w : InstrWord}
    {e : ErrorKind} (hu : s.units[s.target]? = some u) (hw : slot.word = some w)
    (hraised : (wordOut w).raised w = some e) (hpresent : s.present (.word w) = .next (s.withReply (.error e))) :
    s.portStep (slot :: rest) = .next (s.returnRun (.error e)) := by
  rw [State.portStep, unitCycle_slot_word hw hu, hpresent]
  simp only [mapNext]
  rw [afterSlot_error hw (by rw [errorOut_slot hw, hraised])]
  rfl

/-- After an execution that a run on the ports reports as a success, the run goes on if the unit is running. -/
theorem portStep_ok {s r : State} {slot : PortSlot} {rest : List PortSlot} {u : UnitState} {w : InstrWord}
    (hu : s.units[s.target]? = some u) (hw : slot.word = some w) (hraised : (wordOut w).raised w = none)
    (hpresent : s.present (.word w) = .next r) :
    s.portStep (slot :: rest) = .next (if r.targetRunning
      then (r.withReply (.unitPorts (u.outputs slot.ins))).awaitSlots rest else r.returnRun .ok) := by
  rw [State.portStep, unitCycle_slot_word hw hu, hpresent]
  simp only [mapNext]
  rw [afterSlot_ok hw (by rw [errorOut_slot hw, hraised])]
  rfl

/-- An idle cycle of a run on the ports. -/
theorem portStep_idle {s : State} {slot : PortSlot} {rest : List PortSlot} {u : UnitState}
    (hu : s.units[s.target]? = some u) (hw : slot.word = none) :
    s.portStep (slot :: rest) = .next ((s.withReply (.unitPorts (u.outputs slot.ins))).awaitSlots rest) := by
  rw [State.portStep, unitCycle_slot_idle hw hu]
  simp only [mapNext, afterSlot_idle hw]

/-- Settles O55: the host's stop test reads the report of the word, which stands for the error that the execution
raises. -/
theorem portDriverStopsAtErrorOrHalt : Obligations.PortDriverStopsAtErrorOrHalt := by
  intro s slot rest u hf hu
  have hstep : step s = s.portStep (slot :: rest) := step_eq_runStep hf
  rw [hstep]
  refine ⟨fun hw => ?idle, fun w hw hstatus => ?error, fun w hw hstatus => ?ok⟩
  case idle =>
    exact ⟨_, portStep_idle hu hw, (awaitSlots_frame rest _).1, awaitSlots_goesOn rest _⟩
  case error =>
    rw [errorOut_slot hw] at hstatus
    obtain ⟨e, hraised, hpresent⟩ | ⟨v, hraised, -⟩ := present_word_cases w hu
    · exact ⟨e, hpresent, portStep_error hu hw hraised hpresent⟩
    · exact absurd (raised_eq_none_iff.mp hraised) hstatus
  case ok =>
    rw [errorOut_slot hw] at hstatus
    obtain ⟨e, hraised, -⟩ | ⟨v, hraised, hpresent⟩ := present_word_cases w hu
    · rw [raised_eq_none_iff.mpr hstatus] at hraised
      cases hraised
    · have hv := setUnit_same s s.target v hu
      refine ⟨_, _, v, hpresent, rfl, portStep_ok hu hw hraised hpresent, ?_⟩
      rw [targetRunning_eq (s := (s.setUnit s.target v).withReply .ok) hv]
      cases hr : v.running with
      | true =>
        have hunits := (awaitSlots_frame rest
          (((s.setUnit s.target v).withReply .ok).withReply (.unitPorts (u.outputs slot.ins)))).1
        exact ⟨hunits, hunits ▸ hv, (nomatch ·), fun _ => awaitSlots_goesOn rest _⟩
      | false => exact ⟨rfl, hv, fun _ => ⟨rfl, rfl⟩, (nomatch ·)⟩

end Sys2Proof.Machine
end

section
/-! PROOFS. The result of an instruction on one unit, in the terms of the statements, and what an execution depends on
(R86, R89). -/

namespace Sys2Proof.Machine

/-! ### The result of an instruction on one unit -/

/-- The ALU is the addition of words (R110). -/
theorem alu_eq_add (a b : Word) : alu a b = a + b :=
  BitVec.eq_of_toNat_eq (by rw [alu_toNat, BitVec.toNat_add])

section
variable {i : Instr} {u v : UnitState}

/-- An index that names a register reads that register. -/
theorem regAt_of_lt {n : Nat} (h : n < Config.numRegs) : regAt u n = u.reg ⟨n, h⟩ := dif_pos h

/-- A register after a write, with the index of the written register as a number. -/
theorem setReg_reg_val {n : Nat} (h : n < Config.numRegs) (value : Word) (j : Fin Config.numRegs) :
    (u.setReg ⟨n, h⟩ value).reg j = if j.val = n then value else u.reg j := by
  simp only [setReg_reg, Fin.ext_iff, eq_comm]

/-- An instruction that succeeds has valid indices only, and gives the unit the registers, the `pc` and the running flag
of its rule (R100, R101, R110, R120, R121). -/
theorem onOneUnit_result (h : onOneUnit i u = .ok v) :
    (∀ n ∈ registerIndices i, n < 16) ∧ (∀ j, v.reg j = regAfter i u j) ∧ v.pc = pcAfter i u ∧
      v.running = runningAfter i u := by
  cases i with
  | loadImmediate reg value =>
    obtain ⟨hr, rfl⟩ := onOneUnit_loadImmediate_ok_iff.mp h
    refine ⟨by simpa [registerIndices] using hr, fun j => ?_, alu_eq_add .., rfl⟩
    rw [advancePc_reg, setReg_reg_val, regAfter]
  | move dest src =>
    obtain ⟨hd, hs, rfl⟩ := onOneUnit_move_ok_iff.mp h
    refine ⟨by simpa [registerIndices] using ⟨hd, hs⟩, fun j => ?_, alu_eq_add .., rfl⟩
    rw [advancePc_reg, setReg_reg_val, regAfter, regAt_of_lt hs]
  | add dest src =>
    obtain ⟨hd, hs, rfl⟩ := onOneUnit_add_ok_iff.mp h
    refine ⟨by simpa [registerIndices] using ⟨hd, hs⟩, fun j => ?_, alu_eq_add .., rfl⟩
    rw [advancePc_reg, setReg_reg_val, regAfter, regAt_of_lt hd, regAt_of_lt hs, alu_eq_add]
  | jump address => cases h; exact ⟨by simp [registerIndices], fun _ => rfl, rfl, rfl⟩
  | halt => cases h; exact ⟨by simp [registerIndices], fun _ => rfl, rfl, rfl⟩

/-- A register that an instruction changes is its destination (R23). -/
theorem destination_of_regAfter_ne {j : Fin Config.numRegs} (h : regAfter i u j ≠ u.reg j) :
    destination i = some j.val := by
  have pick {n : Nat} {value : Word} (h : (if j.val = n then value else u.reg j) ≠ u.reg j) : some n = some j.val :=
    congrArg some (by_contra fun hne => h (if_neg (Ne.symm hne)))
  cases i with
  | loadImmediate reg value => exact pick h
  | move dest src => exact pick h
  | add dest src => exact pick h
  | jump address => exact absurd rfl h
  | halt => exact absurd rfl h

/-- Every instruction but Halt keeps the running flag (R31). -/
theorem runningAfter_of_ne_halt (h : i ≠ .halt) : runningAfter i u = u.running := by
  cases i with
  | halt => exact absurd rfl h
  | _ => rfl

/-- Halt is the only instruction that clears the running flag (R31). -/
theorem eq_halt_of_runningAfter (hu : u.running = true) (h : runningAfter i u = false) : i = .halt := by
  by_contra hne
  rw [runningAfter_of_ne_halt hne, hu] at h
  cases h

end

/-- Settles O31: an execution that answers commits the instruction's result on its unit, or raises its error. -/
theorem instructionAppliesFullyOrNotAtAll : Obligations.InstructionAppliesFullyOrNotAtAll := by
  intro s t p h
  obtain ⟨u, hu, ⟨i, v, hi, hv, rfl⟩ | ⟨e, rfl⟩⟩ := present_cases h
  · obtain ⟨hindices, hregs, hpc, hrunning⟩ := onOneUnit_result hv
    exact .inl ⟨rfl, sameButUnit_commit .., i, u, v, hi, hindices, hu, setUnit_same s s.target v hu, hregs, hpc,
      hrunning⟩
  · exact .inr ⟨e, rfl⟩

/-- Settles O27: each order commits the ALU's sum into its first operand, and the ALU is the addition of words. -/
theorem addWritesTheSameSumIntoEitherOperand : Obligations.AddWritesTheSameSumIntoEitherOperand := by
  refine ⟨fun s u a b hu => ?sums, fun x y z => ?laws⟩
  case sums =>
    have hexec (c d : Fin Config.numRegs) := exec_writes_register
      (add_wellFormed (c.isLt.trans (by decide)) (d.isLt.trans (by decide))) hu
      (onOneUnit_add_ok_iff.mpr ⟨c.isLt, d.isLt, rfl⟩)
    obtain ⟨t, v, ht, -, hv, hsum, hother, -⟩ := hexec a b
    obtain ⟨t', v', ht', -, hv', hsum', hother', -⟩ := hexec b a
    refine ⟨t, t', v, v', ht, ht', hv, hv', ?_, fun hne => ⟨hother b hne.symm, hother' a hne⟩⟩
    rw [hsum, hsum', alu_eq_add, alu_eq_add]
    exact BitVec.add_comm _ _
  case laws =>
    simp only [alu_eq_add]
    exact ⟨BitVec.add_comm x y, BitVec.add_assoc x y z⟩

/-- Settles O32: an index without an encoding makes the instruction ill-formed. -/
theorem unencodableIndexIsRefused : Obligations.UnencodableIndexIsRefused := by
  rintro i s ⟨n, hn, hbig⟩
  refine exec_illFormed (Bool.eq_false_iff.mpr fun hw => ?_) s
  have hsmall := encodableIndex_iff.mp (wellFormed_iff_indices_encodable.mp hw n hn)
  omega

/-! ### What an execution depends on -/

/-- An operation on a unit shows the same on every host where the unit is the same (R89). -/
theorem onUnit_sameAtTarget {s s' : State} (h : s.units[s.target]? = s'.units[s'.target]?)
    (f : UnitState → Except ErrorKind UnitState) : sameAtTarget (s.onUnit s.target f) (s'.onUnit s'.target f) := by
  cases hu : s.units[s.target]? with
  | none =>
    rw [onUnit_none hu, onUnit_none (h ▸ hu)]
    rfl
  | some u =>
    have hu' : s'.units[s'.target]? = some u := h ▸ hu
    rw [onUnit_some hu, onUnit_some hu']
    cases f u with
    | ok v => exact ⟨(setUnit_same s s.target v hu).trans (setUnit_same s' s'.target v hu').symm, rfl⟩
    | error e => exact ⟨h, rfl⟩

/-- Settles O34: an execution is an operation on its unit alone, or refuses the instruction on every host. -/
theorem executeReadsOnlyItsUnit : Obligations.ExecuteReadsOnlyItsUnit := by
  intro i s s' h
  cases hw : i.wellFormed with
  | true =>
    rw [exec_wellFormed hw, exec_wellFormed hw]
    exact onUnit_sameAtTarget h _
  | false =>
    rw [exec_illFormed hw, exec_illFormed hw]
    rfl

/-! ### The running flag is not read -/

/-- The unit with the running flag at `b`. -/
def UnitState.withFlag (b : Bool) (u : UnitState) : UnitState := { u with running := b }

/-- Setting a unit twice. -/
theorem setUnit_setUnit (s : State) (k : Nat) (u v : UnitState) : (s.setUnit k u).setUnit k v = s.setUnit k v :=
  congrArg (fun units => ({ s with units := units } : State)) (List.set_set ..)

section
variable {s : State} {u : UnitState} {i : Instr} (b : Bool)

/-- The state with the driven unit's flag at `b` holds that unit with the flag. -/
theorem withRunning_some (hu : s.units[s.target]? = some u) :
    s.withRunning b = s.setUnit s.target (u.withFlag b) := by
  have hunits : s.units.modify s.target (·.withFlag b) = s.units.set s.target (u.withFlag b) := by
    rw [List.modify_eq_set_getElem?, hu]
    rfl
  exact congrArg (fun units => ({ s with units := units } : State)) hunits

theorem withRunning_none (hu : s.units[s.target]? = none) : s.withRunning b = s := by
  have hunits : s.units.modify s.target (·.withFlag b) = s.units := by
    rw [List.modify_eq_set_getElem?, hu]
    rfl
  exact congrArg (fun units => ({ s with units := units } : State)) hunits

theorem withRegister_withFlag (reg : Nat) (f : Fin Config.numRegs → UnitState) :
    withRegister reg (fun r => (f r).withFlag b) = (withRegister reg f).map (·.withFlag b) := by
  unfold withRegister
  split <;> rfl

theorem withRegisters_withFlag (dest src : Nat) (f : Fin Config.numRegs → Fin Config.numRegs → UnitState) :
    withRegisters dest src (fun d r => (f d r).withFlag b) = (withRegisters dest src f).map (·.withFlag b) := by
  unfold withRegisters
  split <;> rfl

/-- Every instruction but Halt has the same result on the unit with its flag at `b`, with the flag at `b` (R31). -/
theorem onOneUnit_withFlag (h : i ≠ .halt) (u : UnitState) :
    onOneUnit i (u.withFlag b) = (onOneUnit i u).map (·.withFlag b) := by
  cases i with
  | loadImmediate reg value => exact withRegister_withFlag b reg fun r => (u.setReg r value).advancePc
  | move dest src => exact withRegisters_withFlag b dest src fun d r => (u.setReg d (u.reg r)).advancePc
  | add dest src =>
    exact withRegisters_withFlag b dest src fun d r => (u.setReg d (alu (u.reg d) (u.reg r))).advancePc
  | jump address => rfl
  | halt => exact absurd rfl h

/-- An operation on the driven unit that keeps the flag, on the state with the flag at `b`. -/
theorem onUnit_withRunning {f : UnitState → Except ErrorKind UnitState}
    (h : ∀ u, f (u.withFlag b) = (f u).map (·.withFlag b)) :
    (s.withRunning b).onUnit s.target f = mapNext (fun t => t.withRunning b) (s.onUnit s.target f) := by
  cases hu : s.units[s.target]? with
  | none =>
    rw [withRunning_none b hu, onUnit_none hu]
    rfl
  | some u =>
    have hflag := setUnit_same s s.target (u.withFlag b) hu
    rw [withRunning_some b hu, onUnit_some hflag, onUnit_some hu, h]
    cases f u with
    | ok v =>
      have hv : ((s.setUnit s.target v).withReply .ok).units[s.target]? = some v := setUnit_same s s.target v hu
      simp only [Except.map, State.commitUnit, mapNext, setUnit_setUnit]
      rw [withRunning_some (s := (s.setUnit s.target v).withReply .ok) b hv]
      exact congrArg (fun t => Host.Outcome.next (t.withReply .ok)) (setUnit_setUnit s s.target v _).symm
    | error e =>
      simp only [Except.map, State.raise, mapNext]
      rw [withRunning_some (s := s.withReply (.error e)) b hu]
      rfl

/-- An operation on the driven unit that does not depend on the flag, on the state with the flag at `b`. -/
theorem onUnit_of_withRunning {f : UnitState → Except ErrorKind UnitState} {g : UnitState → UnitState}
    (hf : ∀ u, f u = .ok (g u)) (hg : ∀ u : UnitState, g (u.withFlag b) = g u) :
    (s.withRunning b).onUnit s.target f = s.onUnit s.target f := by
  cases hu : s.units[s.target]? with
  | none => rw [withRunning_none b hu]
  | some u =>
    rw [withRunning_some b hu, onUnit_some (setUnit_same s s.target _ hu), onUnit_some hu]
    simp only [hf, hg, State.commitUnit, setUnit_setUnit]

end

/-- Settles O35: every instruction but Halt keeps the flag and the rest of its result does not depend on it; Halt gives
the flag one value. -/
theorem executeIgnoresRunning : Obligations.ExecuteIgnoresRunning := by
  intro i s b
  constructor
  · intro hne
    cases hw : i.wellFormed with
    | true =>
      rw [exec_wellFormed hw, exec_wellFormed hw]
      exact onUnit_withRunning b (onOneUnit_withFlag b hne)
    | false =>
      rw [exec_illFormed hw, exec_illFormed hw]
      rfl
  · rintro rfl
    rw [exec_wellFormed rfl, exec_wellFormed rfl]
    exact onUnit_of_withRunning b (onOneUnit_halt ·) (fun _ => rfl)

end Sys2Proof.Machine
end

section
/-! PROOFS. What one step can do to the units, to the memory region, to the lifecycle and to the run in progress, each said
once, and the statements about every step that follow from it. -/

namespace Sys2Proof.Machine

/-! ### The units after a step -/

/-- The units that a step from `s` can leave: as they were, or one unit changed by what the step presents to it, by a
loader start, or by its reset (R25, R94, R160). -/
inductive UnitsAfter (s : State) : List UnitState → Prop
  | same : UnitsAfter s s.units
  | executed {k : Nat} {p : Presented} {i : Instr} {u v : UnitState} (hp : s.presents = some (k, p))
      (hi : p.instr = .ok i) (hu : s.units[k]? = some u) (hv : onOneUnit i u = .ok v) :
      UnitsAfter s (s.units.set k v)
  | loaded {k : Nat} {u : UnitState} (start : Word) (hl : s.loadsUnit k = true) (hu : s.units[k]? = some u) :
      UnitsAfter s (s.units.set k (u.load start))
  | reset {k : Nat} (hr : s.resetsUnit k = true) : UnitsAfter s (s.units.set k UnitState.fresh)

/-- No step makes or removes a unit (R146). -/
theorem UnitsAfter.length_eq {s : State} {units : List UnitState} (h : UnitsAfter s units) :
    units.length = s.units.length := by
  cases h with
  | same => rfl
  | executed => exact List.length_set
  | loaded => exact List.length_set
  | reset => exact List.length_set

theorem UnitsAfter.exists_unit {s : State} {units : List UnitState} {k : Nat} {u : UnitState}
    (h : UnitsAfter s units) (hu : s.units[k]? = some u) : ∃ v, units[k]? = some v := by
  obtain ⟨hk, -⟩ := List.getElem?_eq_some_iff.mp hu
  exact ⟨_, List.getElem?_eq_getElem (h.length_eq ▸ hk)⟩

/-- A unit after another unit or itself is set. -/
theorem getElem?_set_cases {units : List UnitState} {j k : Nat} {u v w : UnitState} (hu : units[k]? = some u)
    (hv : (units.set j w)[k]? = some v) : v = u ∨ (j = k ∧ v = w) := by
  by_cases hjk : j = k
  · subst hjk
    obtain ⟨hj, -⟩ := List.getElem?_eq_some_iff.mp hu
    rw [List.getElem?_set_self hj] at hv
    exact .inr ⟨rfl, (Option.some.inj hv).symm⟩
  · rw [List.getElem?_set_ne hjk, hu] at hv
    exact .inl (Option.some.inj hv).symm

/-- Unit `k` after a step: as it was, or the result of what the step presents to it, or started, or fresh. -/
theorem UnitsAfter.unit_cases {s : State} {units : List UnitState} {k : Nat} {u v : UnitState}
    (h : UnitsAfter s units) (hu : s.units[k]? = some u) (hv : units[k]? = some v) :
    v = u ∨ (∃ p i, s.presents = some (k, p) ∧ p.instr = .ok i ∧ onOneUnit i u = .ok v) ∨
    (s.loadsUnit k = true ∧ ∃ start, v = u.load start) ∨ (s.resetsUnit k = true ∧ v = UnitState.fresh) := by
  cases h with
  | same => exact .inl (Option.some.inj (hv.symm.trans hu))
  | @executed j p i u' v' hp hi hu' hv' =>
    obtain rfl | ⟨rfl, rfl⟩ := getElem?_set_cases hu hv
    · exact .inl rfl
    · obtain rfl := Option.some.inj (hu'.symm.trans hu)
      exact .inr (.inl ⟨p, i, hp, hi, hv'⟩)
  | @loaded j u' start hl hu' =>
    obtain rfl | ⟨rfl, rfl⟩ := getElem?_set_cases hu hv
    · exact .inl rfl
    · obtain rfl := Option.some.inj (hu'.symm.trans hu)
      exact .inr (.inr (.inl ⟨hl, start, rfl⟩))
  | reset hr =>
    obtain rfl | ⟨rfl, rfl⟩ := getElem?_set_cases hu hv
    · exact .inl rfl
    · exact .inr (.inr (.inr ⟨hr, rfl⟩))

section
variable {s s₀ t : State} {k : Nat}

/-- The units after presenting what the step presents, in a state `s₀` with the step's units. -/
theorem present_unitsAfter {p : Presented} (hunits : s₀.units = s.units) (hp : s.presents = some (s₀.target, p))
    (h : s₀.present p = .next t) : UnitsAfter s t.units := by
  obtain ⟨u, hu, ⟨i, v, hi, hv, rfl⟩ | ⟨e, rfl⟩⟩ := present_cases h
  · have hset : ((s₀.setUnit s₀.target v).withReply .ok).units = s.units.set s₀.target v := by simp [hunits]
    exact hset ▸ .executed hp hi (hunits ▸ hu) hv
  · rw [withReply_units, hunits]
    exact .same

/-- The units after a cycle of a unit's ports that resets, loads or presents what the step does. -/
theorem unitCycle_unitsAfter {ins : UnitIn} (hunits : s₀.units = s.units)
    (hreset : ins.rst = true → s.resetsUnit k = true)
    (hload : ins.rst = false → ins.loadValid = true → s.loadsUnit k = true)
    (hexec : ins.rst = false → ins.loadValid = false → ins.execValid = true →
      s.presents = some (k, .word ins.execInstr))
    (h : s₀.unitCycle k ins = .next t) : UnitsAfter s t.units := by
  obtain ⟨u, t', hu, rfl, ⟨hrst, rfl⟩ | ⟨hrst, hl, -, rfl⟩ | ⟨hrst, hl, he, hpresent⟩ | ⟨-, -, -, rfl⟩⟩ :=
    unitCycle_cases h
  · simp only [withReply_units, setUnit_units, withTarget_units, hunits]
    exact .reset (hreset hrst)
  · simp only [withReply_units, setUnit_units, withTarget_units, hunits]
    exact .loaded _ (hload hrst hl) (hunits ▸ hu)
  · rw [withReply_units]
    exact present_unitsAfter (s₀ := s₀.withTarget k) hunits (hexec hrst hl he) hpresent
  · simp only [withReply_units, withTarget_units, hunits]
    exact .same

/-- A cycle of the run on the ports of the target unit loads and resets nothing (R96). -/
theorem portStep_unitsAfter {slots : List PortSlot} (hf : s.feed = some (.ports slots))
    (h : s.portStep slots = .next t) : UnitsAfter s t.units := by
  obtain ⟨-, rfl⟩ | ⟨slot, rest, t', rfl, hcycle, rfl⟩ := portStep_cases h
  · exact .same
  · obtain ⟨hrst, hload, hexec, hinstr⟩ := slot_ins slot
    rw [(afterSlot_frame slot rest t').1]
    refine unitCycle_unitsAfter rfl (fun h => ?_) (fun _ h => ?_) (fun _ _ he => ?_) hcycle
    · simp [hrst] at h
    · simp [hload] at h
    · obtain ⟨w, hw⟩ := Option.isSome_iff_exists.mp (hexec ▸ he)
      simp [State.presents, hf, hw, hinstr w hw]

/-- What a run does between its instructions changes only `feed` (R90). -/
theorem continueRun_frame (rest : List Presented) (s : State) :
    (State.continueRun rest s).units = s.units ∧ (State.continueRun rest s).mem = s.mem ∧
      (State.continueRun rest s).lifecycle = s.lifecycle := by
  unfold State.continueRun
  split <;> exact ⟨rfl, rfl, rfl⟩

theorem runStep_unitsAfter {run : Feed} (hf : s.feed = some run) (h : s.runStep run = .next t) :
    UnitsAfter s t.units := by
  obtain ⟨instructions, rfl, hfeed⟩ | ⟨slots, rfl, hports⟩ := runStep_cases h
  · obtain ⟨-, rfl⟩ | ⟨p, rest, t', rfl, hpresent, rfl⟩ := feedStep_cases hfeed
    · exact .same
    · rw [(continueRun_frame rest t').1]
      exact present_unitsAfter rfl (by simp [State.presents, hf]) hpresent
  · exact portStep_unitsAfter hf hports

theorem perform_unitsAfter {op : HostOp} {rest : List HostOp} (hf : s.feed = none) (ha : s.agenda = op :: rest)
    (h : (s.withAgenda rest).perform op = .next t) : UnitsAfter s t.units := by
  cases op with
  | loadAndRun k instructions start =>
    obtain ⟨-, rfl⟩ | ⟨u, hu, rfl⟩ := beginRun_cases h
    · exact .same
    · exact .loaded start (by simp [State.loadsUnit, hf, ha]) hu
  | drivePorts k slots start obsIdx =>
    obtain ⟨-, rfl⟩ | ⟨t', hcycle, rfl⟩ := beginPorts_cases h
    · exact .same
    · rw [(awaitSlots_frame slots t').1]
      exact unitCycle_unitsAfter (s₀ := s.withAgenda rest) rfl (by simp)
        (fun _ _ => by simp [State.loadsUnit, hf, ha]) (by simp) hcycle
  | execute k p =>
    exact present_unitsAfter (s₀ := (s.withAgenda rest).withTarget k) rfl (by simp [State.presents, hf, ha]) h
  | read address =>
    obtain ⟨-, rfl⟩ | ⟨-, rfl⟩ := readMem_cases h
    · exact .same
    · exact .same
  | write address byte =>
    obtain ⟨-, rfl⟩ | ⟨-, rfl⟩ := writeMem_cases h
    · exact .same
    · exact .same
  | start => exact startHost_units h ▸ .same
  | stop => exact stopHost_units h ▸ .same
  | unitCycle k ins =>
    refine unitCycle_unitsAfter (s₀ := s.withAgenda rest) rfl (fun hrst => ?_) (fun hrst hl => ?_)
      (fun hrst hl he => ?_) h
    · simp [State.resetsUnit, hf, ha, hrst]
    · simp [State.loadsUnit, hf, ha, hrst, hl]
    · simp [State.presents, hf, ha, hrst, hl, he]
  | memCycle ins =>
    obtain ⟨o, rfl⟩ := memCycle_cases h
    exact .same

theorem step_unitsAfter (h : step s = .next t) : UnitsAfter s t.units := by
  obtain ⟨run, hf, hrun⟩ | ⟨-, -, rfl⟩ | ⟨op, rest, hf, ha, hop⟩ := step_cases h
  · exact runStep_unitsAfter hf hrun
  · exact .same
  · exact perform_unitsAfter hf ha hop

end

/-! ### The memory region and the lifecycle after a step -/

section
variable {s t : State}

/-- A run in progress reaches neither the memory region nor the lifecycle (R41, R143). -/
theorem runStep_frame {run : Feed} (h : s.runStep run = .next t) : t.mem = s.mem ∧ t.lifecycle = s.lifecycle := by
  obtain ⟨instructions, rfl, hfeed⟩ | ⟨slots, rfl, hports⟩ := runStep_cases h
  · obtain ⟨-, rfl⟩ | ⟨p, rest, t', rfl, hpresent, rfl⟩ := feedStep_cases hfeed
    · exact ⟨rfl, rfl⟩
    · obtain ⟨hmem, hlife, -⟩ := present_frame hpresent
      obtain ⟨-, hmem', hlife'⟩ := continueRun_frame rest t'
      exact ⟨hmem'.trans hmem, hlife'.trans hlife⟩
  · obtain ⟨-, rfl⟩ | ⟨slot, rest, t', rfl, hcycle, rfl⟩ := portStep_cases hports
    · exact ⟨rfl, rfl⟩
    · obtain ⟨hmem, hlife, -⟩ := unitCycle_frame hcycle
      obtain ⟨-, hmem', hlife', -⟩ := afterSlot_frame slot rest t'
      exact ⟨hmem'.trans hmem, hlife'.trans hlife⟩

theorem beginRun_frame {k : Nat} {instructions : List Presented} {start : Word}
    (h : s.beginRun k instructions start = .next t) : t.mem = s.mem ∧ t.lifecycle = s.lifecycle := by
  obtain ⟨-, rfl⟩ | ⟨u, -, rfl⟩ := beginRun_cases h <;> exact ⟨rfl, rfl⟩

theorem beginPorts_frame {k : Nat} {slots : List PortSlot} {start : Word} {obsIdx : BitVec 4}
    (h : s.beginPorts k slots start obsIdx = .next t) : t.mem = s.mem ∧ t.lifecycle = s.lifecycle := by
  obtain ⟨-, rfl⟩ | ⟨t', hcycle, rfl⟩ := beginPorts_cases h
  · exact ⟨rfl, rfl⟩
  · obtain ⟨hmem, hlife, -⟩ := unitCycle_frame hcycle
    obtain ⟨-, hmem', hlife', -⟩ := awaitSlots_frame slots t'
    exact ⟨hmem'.trans hmem, hlife'.trans hlife⟩

/-- Reading a byte changes the reply only (R43). -/
theorem readMem_frame {address : Word} (h : s.readMem address = .next t) : ∃ r, t = s.withReply r := by
  obtain ⟨-, rfl⟩ | ⟨-, rfl⟩ := readMem_cases h <;> exact ⟨_, rfl⟩

/-- The memory region after an operation of the host: as it was, or with one byte stored by a `write` or by a write cycle
of the memory port (R41). -/
theorem perform_mem_cases {op : HostOp} (h : s.perform op = .next t) :
    t.mem = s.mem ∨ ∃ a b, s.mem.inBounds a = true ∧ t.mem = s.mem.setByte a b ∧
      (op = .write a b ∨ ∃ ins, op = .memCycle ins ∧ ins.memOp = 0b10#2 ∧ ins.memAddr = a) := by
  cases op with
  | loadAndRun k instructions start => exact .inl (beginRun_frame h).1
  | drivePorts k slots start obsIdx => exact .inl (beginPorts_frame h).1
  | execute k p => exact .inl (present_frame h).1
  | read address =>
    obtain ⟨r, rfl⟩ := readMem_frame h
    exact .inl rfl
  | write address byte =>
    obtain ⟨hin, rfl⟩ | ⟨-, rfl⟩ := writeMem_cases h
    · exact .inr ⟨address, byte, hin, rfl, .inl rfl⟩
    · exact .inl rfl
  | start =>
    obtain ⟨-, rfl⟩ := startHost_cases h
    exact .inl rfl
  | stop =>
    obtain ⟨-, rfl⟩ | ⟨-, rfl⟩ := stopHost_cases h
    · exact .inl rfl
    · exact .inl rfl
  | unitCycle k ins => exact .inl (unitCycle_frame h).1
  | memCycle ins =>
    obtain ⟨o, rfl⟩ := memCycle_cases h
    by_cases hw : ins.memOp = 0b10#2 ∧ s.mem.inBounds ins.memAddr = true
    · exact .inr ⟨ins.memAddr, ins.memWdata, hw.2, if_pos hw, .inr ⟨ins, rfl, hw.1, rfl⟩⟩
    · exact .inl (if_neg hw)

/-- The memory region after a step: as it was, or with the byte stored that the step writes. -/
theorem step_mem_cases (h : step s = .next t) :
    t.mem = s.mem ∨
    ∃ a b, s.writesByte a = true ∧ s.mem.inBounds a = true ∧ t.mem = s.mem.setByte a b := by
  obtain ⟨run, -, hrun⟩ | ⟨-, -, rfl⟩ | ⟨op, rest, hf, ha, hop⟩ := step_cases h
  · exact .inl (runStep_frame hrun).1
  · exact .inl rfl
  · obtain hmem | ⟨a, b, hin, hmem, rfl | ⟨ins, rfl, hwrite, rfl⟩⟩ := perform_mem_cases hop
    · exact .inl hmem
    · exact .inr ⟨a, b, by simp [State.writesByte, hf, ha], hin, hmem⟩
    · exact .inr ⟨ins.memAddr, b, by simp [State.writesByte, hf, ha, hwrite], hin, hmem⟩

/-- The lifecycle after an operation of the host: as it was, but for `start` and `stop` (R142). -/
theorem perform_lifecycle_cases {op : HostOp} (h : s.perform op = .next t) :
    t.lifecycle = s.lifecycle ∨
    (op = .start ∧ s.lifecycle = .created ∧ t.lifecycle = .running) ∨
    (op = .stop ∧ s.lifecycle = .running ∧ t.lifecycle = .stopped) ∨
    (op = .stop ∧ s.lifecycle ≠ .running ∧ t.lifecycle = .error) := by
  cases op with
  | loadAndRun k instructions start => exact .inl (beginRun_frame h).2
  | drivePorts k slots start obsIdx => exact .inl (beginPorts_frame h).2
  | execute k p =>
    obtain ⟨-, hlife, -⟩ := present_frame h
    exact .inl hlife
  | read address =>
    obtain ⟨r, rfl⟩ := readMem_frame h
    exact .inl rfl
  | write address byte =>
    obtain ⟨-, rfl⟩ | ⟨-, rfl⟩ := writeMem_cases h
    · exact .inl rfl
    · exact .inl rfl
  | start =>
    obtain ⟨hcreated, rfl⟩ := startHost_cases h
    exact .inr (.inl ⟨rfl, hcreated, rfl⟩)
  | stop =>
    obtain ⟨hrunning, rfl⟩ | ⟨hrunning, rfl⟩ := stopHost_cases h
    · exact .inr (.inr (.inl ⟨rfl, hrunning, rfl⟩))
    · exact .inr (.inr (.inr ⟨rfl, hrunning, rfl⟩))
  | unitCycle k ins =>
    obtain ⟨-, hlife, -⟩ := unitCycle_frame h
    exact .inl hlife
  | memCycle ins =>
    obtain ⟨o, rfl⟩ := memCycle_cases h
    exact .inl rfl

end

/-! ### The run in progress after a step -/

section
variable {s t : State}

theorem feedOk_of_feed_none (h : s.feed = none) : s.feedOk = true := by simp [State.feedOk, h]

/-- A run with a running unit and what is left of its sequence is a legal one; with nothing left there is no run. -/
theorem feedOk_of_remaining {rest : List Presented} (hf : s.feed = remaining rest) (hr : s.targetRunning = true) :
    s.feedOk = true := by
  cases rest <;> simp [State.feedOk, hf, remaining, hr]

theorem feedOk_awaitSlots {slots : List PortSlot} (hr : s.targetRunning = true) :
    (s.awaitSlots slots).feedOk = true := by
  cases slots with
  | nil => rfl
  | cons slot rest => exact hr

/-- The unit of a legal run on the ports is running. -/
theorem targetRunning_of_feedOk {slots : List PortSlot} (hf : s.feed = some (.ports slots)) (hok : s.feedOk = true) :
    s.targetRunning = true := by
  cases slots with
  | nil => simp [State.feedOk, hf] at hok
  | cons slot rest => simpa [State.feedOk, hf] using hok

theorem targetRunning_iff : s.targetRunning = true ↔ ∃ u, s.units[s.target]? = some u ∧ u.running = true := by
  unfold State.targetRunning
  cases s.units[s.target]? <;> simp

theorem loadUnit_targetRunning {k : Nat} {u : UnitState} {start : Word} (hu : s.units[k]? = some u) :
    (s.loadUnit k u start).targetRunning = true :=
  targetRunning_iff.mpr ⟨u.load start, setUnit_same s k _ hu, rfl⟩

/-- After a fed instruction a run goes on only with a running unit (R90). -/
theorem feedOk_continueRun (rest : List Presented) : (State.continueRun rest s).feedOk = true := by
  unfold State.continueRun
  split
  next => exact feedOk_of_feed_none rfl
  next hstop =>
    have hrunning : s.targetRunning = true := by simp_all [State.feedStops]
    exact feedOk_of_remaining rfl hrunning

/-- A cycle of a legal run on the ports leaves a legal run: an idle cycle keeps the unit running, and after an execute
cycle the host tests it (R96). -/
theorem feedOk_portStep {slots : List PortSlot} (hf : s.feed = some (.ports slots)) (hok : s.feedOk = true)
    (h : s.portStep slots = .next t) : t.feedOk = true := by
  have hrunning := targetRunning_of_feedOk hf hok
  obtain ⟨u, hu, -⟩ := targetRunning_iff.mp hrunning
  obtain ⟨-, rfl⟩ | ⟨slot, rest, t', rfl, hcycle, rfl⟩ := portStep_cases h
  · exact feedOk_of_feed_none rfl
  · cases hw : slot.word with
    | none =>
      rw [unitCycle_slot_idle hw hu] at hcycle
      cases hcycle
      rw [afterSlot_idle hw]
      exact feedOk_awaitSlots hrunning
    | some w =>
      cases hraised : (errorOut slot.ins).raised w with
      | some e =>
        rw [afterSlot_error hw hraised]
        exact feedOk_of_feed_none rfl
      | none =>
        rw [afterSlot_ok hw hraised]
        split
        next htest => exact feedOk_awaitSlots htest
        next => exact feedOk_of_feed_none rfl

theorem feedOk_runStep {run : Feed} (hf : s.feed = some run) (hok : s.feedOk = true) (h : s.runStep run = .next t) :
    t.feedOk = true := by
  obtain ⟨instructions, rfl, hfeed⟩ | ⟨slots, rfl, hports⟩ := runStep_cases h
  · obtain ⟨-, rfl⟩ | ⟨p, rest, t', rfl, -, rfl⟩ := feedStep_cases hfeed
    · exact feedOk_of_feed_none rfl
    · exact feedOk_continueRun rest
  · exact feedOk_portStep hf hok hports

/-- An operation of the host between runs begins a run only on a unit that it has started. -/
theorem feedOk_perform {op : HostOp} (hf : s.feed = none) (h : s.perform op = .next t) : t.feedOk = true := by
  cases op with
  | loadAndRun k instructions start =>
    obtain ⟨-, rfl⟩ | ⟨u, hu, rfl⟩ := beginRun_cases h
    · exact feedOk_of_feed_none hf
    · exact feedOk_of_remaining rfl (loadUnit_targetRunning hu)
  | drivePorts k slots start obsIdx =>
    obtain ⟨-, rfl⟩ | ⟨t', hcycle, rfl⟩ := beginPorts_cases h
    · exact feedOk_of_feed_none hf
    · obtain ⟨u, -, hu, -⟩ := unitCycle_cases hcycle
      rw [unitCycle_load hu rfl rfl rfl] at hcycle
      cases hcycle
      exact feedOk_awaitSlots (loadUnit_targetRunning hu)
  | execute k p =>
    obtain ⟨-, -, -, -, hfeed, -⟩ := present_frame h
    exact feedOk_of_feed_none (hfeed.trans hf)
  | read address =>
    obtain ⟨r, rfl⟩ := readMem_frame h
    exact feedOk_of_feed_none hf
  | write address byte =>
    obtain ⟨-, rfl⟩ | ⟨-, rfl⟩ := writeMem_cases h
    · exact feedOk_of_feed_none hf
    · exact feedOk_of_feed_none hf
  | start =>
    obtain ⟨-, rfl⟩ := startHost_cases h
    exact feedOk_of_feed_none hf
  | stop =>
    obtain ⟨-, rfl⟩ | ⟨-, rfl⟩ := stopHost_cases h
    · exact feedOk_of_feed_none hf
    · exact feedOk_of_feed_none hf
  | unitCycle k ins =>
    obtain ⟨-, -, -, hfeed, -⟩ := unitCycle_frame h
    exact feedOk_of_feed_none (hfeed.trans hf)
  | memCycle ins =>
    obtain ⟨o, rfl⟩ := memCycle_cases h
    exact feedOk_of_feed_none hf

theorem step_keeps_feedOk (hok : s.feedOk = true) (h : step s = .next t) : t.feedOk = true := by
  obtain ⟨run, hf, hrun⟩ | ⟨hf, -, rfl⟩ | ⟨op, rest, hf, -, hop⟩ := step_cases h
  · exact feedOk_runStep hf hok hrun
  · exact feedOk_of_feed_none hf
  · exact feedOk_perform (s := s.withAgenda rest) hf hop

theorem step_keeps_mem_wf (hwf : s.mem.wf = true) (h : step s = .next t) : t.mem.wf = true := by
  obtain hmem | ⟨a, b, -, hin, hmem⟩ := step_mem_cases h
  · exact hmem ▸ hwf
  · exact hmem ▸ setByte_wf b hwf hin

end

/-! ### The statements -/

/-- Settles O3: a step stores bytes of the region only, and leaves a run in progress only on a running unit. -/
theorem stepKeepsInvariant : Obligations.StepKeepsInvariant :=
  fun _ _ ⟨hwf, hok⟩ h => ⟨step_keeps_mem_wf hwf h, step_keeps_feedOk hok h⟩

/-- Settles O2: a constructed region lists no byte, and no run is in progress. -/
theorem constructedHostMeetsInvariant : Obligations.ConstructedHostMeetsInvariant :=
  ⟨fun numUnits memSize => ⟨construct_mem_wf numUnits memSize, feedOk_of_feed_none rfl⟩, rfl, reset_mem_wf,
    feedOk_of_feed_none rfl⟩

/-- Settles O4: a step sets at most one unit and stores at most one byte. -/
theorem stepKeepsUnitCountAndMemorySize : Obligations.StepKeepsUnitCountAndMemorySize := by
  intro s t h
  refine ⟨(step_unitsAfter h).length_eq, ?_⟩
  obtain hmem | ⟨a, b, -, -, hmem⟩ := step_mem_cases h
  · rw [hmem]
  · rw [hmem, setByte_size]

/-- Settles O5: each way in which a step changes a unit is one of the three causes. -/
theorem unitChangesOnlyWhenDriven : Obligations.UnitChangesOnlyWhenDriven := by
  intro s t k h hne
  have hafter := step_unitsAfter h
  cases hu : s.units[k]? with
  | none =>
    have hk : t.units[k]? = none := by
      rw [List.getElem?_eq_none_iff, hafter.length_eq]
      exact List.getElem?_eq_none_iff.mp hu
    exact absurd (hk.trans hu.symm) hne
  | some u =>
    obtain ⟨v, hv⟩ := hafter.exists_unit hu
    obtain rfl | ⟨p, i, hp, -⟩ | ⟨hl, -⟩ | ⟨hr, -⟩ := hafter.unit_cases hu hv
    · exact absurd (hv.trans hu.symm) hne
    · exact .inl ⟨p, hp⟩
    · exact .inr (.inl hl)
    · exact .inr (.inr hr)

/-- Settles O6: a loader start keeps the registers, and an instruction changes its destination only. -/
theorem registerChangesOnlyByItsInstruction : Obligations.RegisterChangesOnlyByItsInstruction := by
  intro s t k u v i h hu hv hne
  obtain rfl | ⟨p, instr, hp, hi, hok⟩ | ⟨-, start, rfl⟩ | ⟨hr, -⟩ := (step_unitsAfter h).unit_cases hu hv
  · exact absurd rfl hne
  · obtain ⟨-, hregs, -⟩ := onOneUnit_result hok
    exact .inl ⟨p, instr, hp, hi, destination_of_regAfter_ne (hregs i ▸ hne)⟩
  · exact absurd (load_reg ..) hne
  · exact .inr hr

/-- Settles O7: the loader sets the flag, a reset clears it, and of the instructions only Halt changes it. -/
theorem runningChangesOnlyByLoaderHaltReset : Obligations.RunningChangesOnlyByLoaderHaltReset := by
  intro s t k u v h hu hv
  obtain rfl | ⟨p, i, hp, hi, hok⟩ | ⟨hl, start, rfl⟩ | ⟨hr, rfl⟩ := (step_unitsAfter h).unit_cases hu hv
  · exact ⟨fun hoff hon => absurd hon (by simp [hoff]), fun hon hoff => absurd hon (by simp [hoff])⟩
  · obtain ⟨-, -, -, hrunning⟩ := onOneUnit_result hok
    refine ⟨fun hoff hon => ?_, fun hon hoff => ?_⟩
    · have hne : i ≠ .halt := by
        rintro rfl
        exact absurd hon (by simp [hrunning, runningAfter])
      rw [hrunning, runningAfter_of_ne_halt hne, hoff] at hon
      cases hon
    · exact .inl ⟨p, hp, eq_halt_of_runningAfter hon (hrunning ▸ hoff) ▸ hi⟩
  · exact ⟨fun _ _ => hl, fun _ hoff => absurd hoff (by simp)⟩
  · exact ⟨fun _ hon => absurd hon (by simp), fun _ _ => .inr hr⟩

/-- Settles O8: a byte stored at another address leaves what this one reads. -/
theorem memoryChangesOnlyByHostWrite : Obligations.MemoryChangesOnlyByHostWrite := by
  intro s t a _ h hne
  obtain hmem | ⟨a', b, hwrites, -, hmem⟩ := step_mem_cases h
  · exact absurd (by rw [hmem]) hne
  · have heq : a = a' := by_contra fun haa => hne (hmem ▸ setByte_read_other haa)
    exact heq ▸ hwrites

/-- Settles O9: the transitions of `start` and `stop`, of which the one from Error leads to Error. -/
theorem lifecycleChangesOnlyByStartAndStop : Obligations.LifecycleChangesOnlyByStartAndStop := by
  intro s t h hne
  obtain ⟨run, -, hrun⟩ | ⟨-, -, rfl⟩ | ⟨op, rest, hf, ha, hop⟩ := step_cases h
  · exact absurd (runStep_frame hrun).2 hne
  · exact absurd rfl hne
  · refine ⟨hf, rest, ?_⟩
    obtain hsame | ⟨rfl, hfrom, hto⟩ | ⟨rfl, hfrom, hto⟩ | ⟨rfl, hfrom, hto⟩ := perform_lifecycle_cases hop
    · exact absurd hsame hne
    · exact .inl ⟨ha, hfrom, hto⟩
    · exact .inr (.inl ⟨ha, hfrom, hto⟩)
    · exact .inr (.inr ⟨ha, hfrom, fun herror => hne (hto.trans herror.symm), hto⟩)

/-! ### The canonical form of the region -/

/-- Canonical cells are decided by what the addresses of the region hold: the least listed address is the least one that
does not hold 0. -/
theorem cells_eq_of_cellByte_eq {size : Nat} :
    ∀ {cells cells' : List Host.Cell} {lo : Nat}, cellsWf size lo cells = true → cellsWf size lo cells' = true →
      (∀ a, a < size → cellByte cells a = cellByte cells' a) → cells = cells'
  | [], [], _, _, _, _ => rfl
  | [], (k, v) :: rest, _, _, h', heq => by
    simp only [cellsWf, Bool.and_eq_true, decide_eq_true_eq] at h'
    obtain ⟨⟨⟨-, hk⟩, hv⟩, -⟩ := h'
    exact absurd (by simpa [cellByte] using (heq k hk).symm) hv
  | (k, v) :: rest, [], _, h, _, heq => by
    simp only [cellsWf, Bool.and_eq_true, decide_eq_true_eq] at h
    obtain ⟨⟨⟨-, hk⟩, hv⟩, -⟩ := h
    exact absurd (by simpa [cellByte] using heq k hk) hv
  | (k, v) :: rest, (k', v') :: rest', _, h, h', heq => by
    simp only [cellsWf, Bool.and_eq_true, decide_eq_true_eq] at h h'
    obtain ⟨⟨⟨-, hk⟩, hv⟩, hrest⟩ := h
    obtain ⟨⟨⟨-, hk'⟩, hv'⟩, hrest'⟩ := h'
    rcases lt_trichotomy k k' with hlt | rfl | hgt
    · have hzero : cellByte rest' k = 0#8 := cellByte_of_lt (by omega) hrest'
      exact absurd (by simpa [cellByte, hlt.ne', hzero] using heq k hk) hv
    · have hhead : v = v' := by simpa [cellByte] using heq k hk
      have htail : rest = rest' := by
        refine cells_eq_of_cellByte_eq hrest hrest' fun a ha => ?_
        by_cases hka : k = a
        · subst hka
          rw [cellByte_of_lt (Nat.lt_succ_self k) hrest, cellByte_of_lt (Nat.lt_succ_self k) hrest']
        · simpa [cellByte, hka] using heq a ha
      rw [hhead, htail]
    · have hzero : cellByte rest k' = 0#8 := cellByte_of_lt (by omega) hrest
      exact absurd (by simpa [cellByte, hgt.ne', hzero] using (heq k' hk').symm) hv'

/-- Settles O12: in a region of at most 2^64 bytes every index is an address that can be read. -/
theorem canonicalMemoryIsUnique : Obligations.CanonicalMemoryIsUnique := by
  rintro ⟨size, cells⟩ ⟨_, cells'⟩ hwf hwf' rfl hsize hread
  have hcells : cells = cells' := by
    refine cells_eq_of_cellByte_eq hwf hwf' fun a ha => ?_
    have haddr : (BitVec.ofNat 64 a).toNat = a := by
      rw [BitVec.toNat_ofNat, Nat.mod_eq_of_lt (lt_of_lt_of_le ha hsize)]
    have hbyte := hread (BitVec.ofNat 64 a)
    rw [read_of_lt (haddr.symm ▸ ha), read_of_lt (haddr.symm ▸ ha), Except.ok.injEq] at hbyte
    simpa only [Memory.byteAt, haddr] using hbyte
  rw [hcells]

end Sys2Proof.Machine
end

section
/-! PROOFS. The contract of the load-and-run driver as a loop: how a fed sequence splits, and the statements about Halt,
errors and Jumps in a run that follow from it (R30, R90, R91). -/

namespace Sys2Proof.Machine

/-! ### The stop test -/

section
variable {s t : State}

/-- The stop test of the driver (R90). -/
theorem feedStops_iff : s.feedStops = true ↔ (∃ e, s.reply = .error e) ∨ s.targetRunning = false := by
  unfold State.feedStops Reply.isError
  cases s.reply <;> simp

theorem feedStops_of_error {e : ErrorKind} (h : s.reply = .error e) : s.feedStops = true :=
  feedStops_iff.mpr (.inl ⟨e, h⟩)

theorem feedStops_of_not_running (h : s.targetRunning = false) : s.feedStops = true :=
  feedStops_iff.mpr (.inr h)

theorem feedStops_of_ok (hreply : s.reply = .ok) (hr : s.targetRunning = true) : s.feedStops = false := by
  simp [State.feedStops, Reply.isError, hreply, hr]

/-- A presented instruction replies success or an error (R80). -/
theorem present_reply_cases {p : Presented} (h : s.present p = .next t) : t.reply = .ok ∨ ∃ e, t.reply = .error e := by
  obtain ⟨u, -, ⟨i, v, -, -, rfl⟩ | ⟨e, rfl⟩⟩ := present_cases h
  · exact .inl rfl
  · exact .inr ⟨e, rfl⟩

/-- A run that does not stop after an instruction had success with it, and its unit is running (R90). -/
theorem ok_of_feedStops {p : Presented} (h : s.present p = .next t) (hstop : t.feedStops = false) :
    t.reply = .ok ∧ t.targetRunning = true := by
  obtain hok | ⟨e, herr⟩ := present_reply_cases h
  · exact ⟨hok, by simpa [State.feedStops, Reply.isError, hok] using hstop⟩
  · exact absurd (feedStops_of_error herr) (by simp [hstop])

end

/-! ### An earlier reply is not read -/

section
variable (s : State) (r : Reply)

theorem onUnit_withReply (k : Nat) (f : UnitState → Except ErrorKind UnitState) :
    (s.withReply r).onUnit k f = s.onUnit k f := by
  cases hu : s.units[k]? with
  | none => rw [onUnit_none hu, onUnit_none (s := s.withReply r) hu]
  | some u =>
    rw [onUnit_some hu, onUnit_some (s := s.withReply r) hu]
    cases f u <;> rfl

theorem present_withReply (p : Presented) : (s.withReply r).present p = s.present p := by
  cases hp : p.instr with
  | ok i =>
    rw [present_decoded hp, present_decoded hp]
    cases hw : i.wellFormed with
    | true => rw [exec_wellFormed hw, exec_wellFormed hw, withReply_target, onUnit_withReply]
    | false => rw [exec_illFormed hw, exec_illFormed hw]
  | error e => simp only [State.present, hp, withReply_target, onUnit_withReply]

theorem feedAll_withReply (instructions : List Presented) :
    State.feedAll instructions (s.withReply r) = State.feedAll instructions s := by
  cases instructions with
  | nil => rfl
  | cons p rest => rw [State.feedAll, State.feedAll, present_withReply]

end

/-! ### One turn of the loop, and how a sequence splits -/

section
variable {s t : State} {p : Presented} {before rest : List Presented}

theorem feedAll_stops (h : s.present p = .next t) (hstop : t.feedStops = true) :
    State.feedAll (p :: rest) s = .next t := by
  simp only [State.feedAll, h, hstop, if_true]

theorem feedAll_continues (h : s.present p = .next t) (hstop : t.feedStops = false) :
    State.feedAll (p :: rest) s = State.feedAll rest t := by
  simp [State.feedAll, h, hstop]

theorem feedAll_refused {e : Refusal} (h : s.present p = .refused e) :
    State.feedAll (p :: rest) s = .refused e := by
  simp only [State.feedAll, h]

/-- Two sequences that are fed alike from every state are fed alike after a common first part. -/
theorem feedAll_append_congr {xs ys : List Presented} (h : ∀ s, State.feedAll xs s = State.feedAll ys s)
    (before : List Presented) (s : State) :
    State.feedAll (before ++ xs) s = State.feedAll (before ++ ys) s := by
  induction before generalizing s with
  | nil => exact h s
  | cons p before ih =>
    rw [List.cons_append, List.cons_append, State.feedAll, State.feedAll]
    simp only [ih]

/-- A sequence after a first part that ends with success and a running unit is fed where that part left the host. -/
theorem feedAll_append (h : State.feedAll before s = .next t) (hreply : t.reply = .ok)
    (hr : t.targetRunning = true) (rest : List Presented) :
    State.feedAll (before ++ rest) s = State.feedAll rest t := by
  induction before generalizing s with
  | nil =>
    cases h
    exact (feedAll_withReply s .ok rest).symm
  | cons p before ih =>
    obtain ⟨r, hp, ⟨hstop, rfl⟩ | ⟨hstop, hrest⟩⟩ := feedAll_cons_cases h
    · rw [feedStops_of_ok hreply hr] at hstop
      cases hstop
    · rw [List.cons_append, feedAll_continues hp hstop]
      exact ih hrest

end

/-! ### The contract of a run that starts its unit -/

section
variable {s t : State} {k : Nat}

/-- A run that ends with success started its unit, and the unit it ends with is the one it was fed to (R90). -/
theorem loadAndRun_ok {before : List Presented} {start : Word} (h : s.loadAndRun k before start = .next t)
    (hreply : t.reply = .ok) :
    ∃ u, s.units[k]? = some u ∧ State.feedAll before (s.loadUnit k u start) = .next t ∧ t.target = k := by
  obtain ⟨-, rfl⟩ | ⟨u, hu, hfeed⟩ := loadAndRun_cases h
  · cases hreply
  · obtain ⟨-, -, -, htarget, -⟩ := feedAll_frame hfeed
    exact ⟨u, hu, hfeed, htarget⟩

/-- A sequence after a first part that ends with success and a running unit, as one run. -/
theorem loadAndRun_append {before : List Presented} {start : Word} {u : UnitState}
    (h : s.loadAndRun k before start = .next t) (hreply : t.reply = .ok) (hu : t.units[k]? = some u)
    (hr : u.running = true) (rest : List Presented) :
    t.target = k ∧ s.loadAndRun k (before ++ rest) start = State.feedAll rest t := by
  obtain ⟨u₀, hu₀, hfeed, rfl⟩ := loadAndRun_ok h hreply
  exact ⟨rfl, (loadAndRun_some hu₀).trans (feedAll_append hfeed hreply (targetRunning_iff.mpr ⟨u, hu, hr⟩) rest)⟩

end

/-! ### Halt, and a run without it -/

/-- Halt on the driven unit stops the run (R90, R91). -/
theorem feedStops_of_halt {s t : State} {p : Presented} (hp : p.instr = .ok .halt) (h : s.present p = .next t) :
    t.feedStops = true := by
  obtain ⟨u, hu, ⟨i, v, hi, hv, rfl⟩ | ⟨e, rfl⟩⟩ := present_cases h
  · obtain rfl : i = .halt := Except.ok.inj (hi.symm.trans hp)
    obtain rfl : u.clearRunning = v := Except.ok.inj hv
    exact feedStops_of_not_running (targetRunning_eq (setUnit_same s s.target u.clearRunning hu))
  · exact feedStops_of_error rfl

/-- What stands after a Halt is not fed (R91). -/
theorem feedAll_halt_cons {p : Presented} (hp : p.instr = .ok .halt) (after : List Presented) (s : State) :
    State.feedAll (p :: after) s = State.feedAll [p] s := by
  cases h : s.present p with
  | next t => rw [feedAll_stops h (feedStops_of_halt hp h), feedAll_stops h (feedStops_of_halt hp h)]
  | refused r => rw [feedAll_refused h, feedAll_refused h]
  | fault e => nomatch e

/-- Every instruction but Halt keeps the driven unit running, whether it succeeds or raises an error (R31). -/
theorem present_keeps_targetRunning {s t : State} {p : Presented} (hp : p.instr ≠ .ok .halt)
    (hr : s.targetRunning = true) (h : s.present p = .next t) : t.targetRunning = true := by
  obtain ⟨u, hu, ⟨i, v, hi, hv, rfl⟩ | ⟨e, rfl⟩⟩ := present_cases h
  · have hne : i ≠ .halt := by
      rintro rfl
      exact hp hi
    obtain ⟨-, -, -, hrunning⟩ := onOneUnit_result hv
    refine targetRunning_iff.mpr ⟨v, setUnit_same s s.target v hu, ?_⟩
    rw [hrunning, runningAfter_of_ne_halt hne, ← targetRunning_eq hu, hr]
  · exact hr

theorem feedAll_keeps_targetRunning {instructions : List Presented} {s t : State}
    (hno : ∀ p ∈ instructions, p.instr ≠ .ok .halt) (hr : s.targetRunning = true)
    (h : State.feedAll instructions s = .next t) : t.targetRunning = true := by
  induction instructions generalizing s with
  | nil =>
    cases h
    exact hr
  | cons p rest ih =>
    obtain ⟨hp, hrest⟩ := List.forall_mem_cons.mp hno
    obtain ⟨r, hpresent, ⟨-, rfl⟩ | ⟨-, hfeed⟩⟩ := feedAll_cons_cases h
    · exact present_keeps_targetRunning hp hr hpresent
    · exact ih hrest (present_keeps_targetRunning hp hr hpresent) hfeed

/-- Settles O46: the loader start sets the flag, and a fed instruction that is no Halt keeps it. -/
theorem runWithoutHaltLeavesUnitRunning : Obligations.RunWithoutHaltLeavesUnitRunning := by
  refine ⟨fun s k u start hu => ?empty, fun s t k instructions start hno h hreply => ?noHalt⟩
  case empty =>
    exact ⟨_, u.load start, loadAndRun_some hu, rfl, setUnit_same s k _ hu, load_pc .., load_running ..,
      fun _ => load_reg ..⟩
  case noHalt =>
    obtain ⟨-, rfl⟩ | ⟨u, hu, hfeed⟩ := loadAndRun_cases h
    · exact absurd rfl hreply
    · obtain ⟨-, -, -, htarget, -⟩ := feedAll_frame hfeed
      have hrunning := feedAll_keeps_targetRunning hno (loadUnit_targetRunning hu) hfeed
      exact (show t.target = k from htarget) ▸ targetRunning_iff.mp hrunning

/-- Settles O47: a Halt stops the run wherever it stands in the sequence. -/
theorem nothingRunsAfterHalt : Obligations.NothingRunsAfterHalt := by
  intro s k before after p start hp
  unfold State.loadAndRun
  simp only [feedAll_append_congr (feedAll_halt_cons hp after) before]

/-- Settles O48: the failing instruction is fed where the first part left the host, and stops the run. -/
theorem runAbortsAtTheFirstError : Obligations.RunAbortsAtTheFirstError := by
  intro s t k u before after p start e h hreply hu hr hp
  rw [(loadAndRun_append h hreply hu hr (p :: after)).2]
  exact feedAll_stops hp (feedStops_of_error rfl)

/-! ### Jump -/

/-- A Jump on the driven unit sets its `pc`, and is no other instruction's matter (R120). -/
theorem present_jump {s : State} {p : Presented} {address : Word} {u : UnitState} (hp : p.instr = .ok (.jump address))
    (hu : s.units[s.target]? = some u) :
    s.present p = .next ((s.setUnit s.target (u.setPc address)).withReply .ok) := by
  rw [present_decoded hp, exec_of_onOneUnit_ok rfl hu (onOneUnit_jump address u)]

/-- A Jump fed to a running unit leaves what a loader start at its address leaves (R30, R88). -/
theorem feedAll_jump_cons {s : State} {p : Presented} {address : Word} {u : UnitState}
    (hp : p.instr = .ok (.jump address)) (hu : s.units[s.target]? = some u) (hr : u.running = true)
    (rest : List Presented) :
    State.feedAll (p :: rest) s = State.feedAll rest (s.loadUnit s.target u address) := by
  have hload : u.load address = u.setPc address := by
    rw [UnitState.load, UnitState.setRunning, ← hr]
    rfl
  have hjump : s.present p = .next (s.loadUnit s.target u address) := by
    rw [present_jump hp hu, State.loadUnit, hload, withTarget_self]
  exact feedAll_continues hjump (feedStops_of_ok rfl (loadUnit_targetRunning hu))

/-- Loading a loaded unit again. -/
theorem loadUnit_loadUnit (s : State) (k : Nat) (u : UnitState) (start address : Word) :
    (s.loadUnit k u start).loadUnit k (u.load start) address = s.loadUnit k u address := by
  have hset : ((s.withTarget k).setUnit k (u.load start)).setUnit k (u.load address) =
      (s.withTarget k).setUnit k (u.load address) := setUnit_setUnit ..
  exact congrArg (fun t => t.withReply .ok) hset

/-- Settles O49: a Jump on a running unit is a loader start at its address, which forgets the earlier `pc`. -/
theorem jumpDoesNotRedirectTheFeed : Obligations.JumpDoesNotRedirectTheFeed := by
  refine fun s k p rest start address hp => ⟨?head, fun before t u h hreply hu hr => ?later⟩
  case head =>
    by_cases hunits : s.units = []
    · rw [loadAndRun_noUnits hunits, loadAndRun_noUnits hunits]
    · cases hu : s.units[k]? with
      | none => rw [loadAndRun_missing hunits hu, loadAndRun_missing hunits hu]
      | some u =>
        rw [loadAndRun_some hu, loadAndRun_some hu,
          feedAll_jump_cons hp (setUnit_same s k (u.load start) hu) (load_running ..)]
        exact congrArg (State.feedAll rest) (loadUnit_loadUnit s k u start address)
  case later =>
    obtain ⟨rfl, hrun⟩ := loadAndRun_append h hreply hu hr (p :: rest)
    rw [hrun, loadAndRun_some hu, feedAll_jump_cons hp hu hr]

end Sys2Proof.Machine
end

section
/-! PROOFS. The driver as the machine performs it, one instruction or one cycle of the ports a step, and the statements
that it has the outcome of the contract (R90, R96). -/

namespace Sys2Proof.Machine

/-! ### What is still to be done, which no execution reads or writes -/

/-- `s` with what is left of the run in progress. -/
def State.withFeed (s : State) (feed : Option Feed) : State := { s with feed := feed }

theorem withFeed_none (s : State) (h : s.feed = none) : s.withFeed none = s := by
  rw [State.withFeed, ← h]

/-- The change `f` of a state commutes with all that an execution does: it leaves the units and the target, and is not
undone by a unit or a reply that is set. -/
structure CommutesWithExecution (f : State → State) : Prop where
  units : ∀ s, (f s).units = s.units
  target : ∀ s, (f s).target = s.target
  setUnit : ∀ s k u, f (s.setUnit k u) = (f s).setUnit k u
  withReply : ∀ s r, f (s.withReply r) = (f s).withReply r

theorem withFeed_commutes (feed : Option Feed) : CommutesWithExecution (·.withFeed feed) :=
  ⟨fun _ => rfl, fun _ => rfl, fun _ _ _ => rfl, fun _ _ => rfl⟩

theorem withAgenda_commutes (agenda : List HostOp) : CommutesWithExecution (·.withAgenda agenda) :=
  ⟨fun _ => rfl, fun _ => rfl, fun _ _ _ => rfl, fun _ _ => rfl⟩

section
variable {f : State → State} (hf : CommutesWithExecution f) (s : State)
include hf

theorem onUnit_commutes (k : Nat) (g : UnitState → Except ErrorKind UnitState) :
    (f s).onUnit k g = mapNext f (s.onUnit k g) := by
  cases hu : s.units[k]? with
  | none =>
    rw [onUnit_none hu, onUnit_none ((hf.units s).symm ▸ hu)]
    rfl
  | some u =>
    rw [onUnit_some hu, onUnit_some ((hf.units s).symm ▸ hu)]
    cases g u with
    | ok v => simp only [State.commitUnit, mapNext, hf.withReply, hf.setUnit]
    | error e => simp only [State.raise, mapNext, hf.withReply]

theorem present_commutes (p : Presented) : (f s).present p = mapNext f (s.present p) := by
  cases hp : p.instr with
  | ok i =>
    rw [present_decoded hp, present_decoded hp]
    cases hw : i.wellFormed with
    | true => rw [exec_wellFormed hw, exec_wellFormed hw, hf.target, onUnit_commutes hf]
    | false =>
      rw [exec_illFormed hw, exec_illFormed hw]
      rfl
  | error e => simp only [State.present, hp, hf.target, onUnit_commutes hf]

end

/-! ### The driver, one instruction a step -/

/-- A step of a run feeds the next instruction, and goes on or returns (R90). -/
theorem step_feed_cons {s : State} (p : Presented) (rest : List Presented) :
    step (s.withFeed (remaining (p :: rest))) = mapNext (State.continueRun rest) (s.present p) := by
  have hstep : step (s.withFeed (remaining (p :: rest))) =
      mapNext (State.continueRun rest) ((s.withFeed (remaining (p :: rest))).present p) := rfl
  have hcontinue : (fun t : State => State.continueRun rest (t.withFeed (remaining (p :: rest)))) =
      State.continueRun rest := by
    funext t
    unfold State.continueRun
    rfl
  rw [hstep, present_commutes (withFeed_commutes _), mapNext_mapNext, hcontinue]

/-- With no run in progress a step performs the operation at the head of the agenda (R51). -/
theorem step_withAgenda_cons {s : State} (hf : s.feed = none) (op : HostOp) (rest : List HostOp) :
    step (s.withAgenda (op :: rest)) = (s.withAgenda rest).perform op :=
  step_eq_perform (s := s.withAgenda (op :: rest)) hf rfl

theorem continueRun_stops {s : State} (rest : List Presented) (h : s.feedStops = true) :
    State.continueRun rest s = s.withFeed none := if_pos h

theorem continueRun_continues {s : State} (rest : List Presented) (h : s.feedStops = false) :
    State.continueRun rest s = s.withFeed (remaining rest) := if_neg (by simp [h])

/-- The steps of a run do what the contract's loop does (R90), in at most one step for each instruction. -/
theorem run_remaining_eq_feedAll {instructions : List Presented} {s : State} (hfeed : s.feed = none)
    (hreply : s.reply = .ok) :
    ∃ n, n ≤ instructions.length ∧
      Host.Core.run Sys2Proof.core n (s.withFeed (remaining instructions)) = State.feedAll instructions s := by
  induction instructions generalizing s with
  | nil =>
    refine ⟨0, le_refl 0, ?_⟩
    have hend : s.withReply .ok = s := by rw [State.withReply, ← hreply]
    rw [remaining, withFeed_none s hfeed, State.feedAll, hend]
    rfl
  | cons p rest ih =>
    have hstep := step_feed_cons (s := s) p rest
    cases hp : s.present p with
    | fault e => nomatch e
    | refused e =>
      rw [hp] at hstep
      exact ⟨1, by simp, by rw [run_one, hstep, feedAll_refused hp]; rfl⟩
    | next t =>
      rw [hp] at hstep
      obtain ⟨-, -, -, -, htfeed, -⟩ := present_frame hp
      replace htfeed : t.feed = none := htfeed.trans hfeed
      cases hstop : t.feedStops with
      | true =>
        refine ⟨1, by simp, ?_⟩
        rw [run_one, hstep, feedAll_stops hp hstop, mapNext, continueRun_stops rest hstop, withFeed_none t htfeed]
      | false =>
        obtain ⟨n, hn, hrun⟩ := ih htfeed (ok_of_feedStops hp hstop).1
        refine ⟨n + 1, Nat.succ_le_succ hn, ?_⟩
        rw [feedAll_continues hp hstop, ← hrun]
        exact run_next (by rw [hstep, mapNext, continueRun_continues rest hstop])

/-- Settles O42: the first step starts the unit or ends the request, and the steps of the run follow the loop. -/
theorem driverRefinesLoadAndRun : Obligations.DriverRefinesLoadAndRun := by
  intro s k instructions start hf
  have hstep : step (s.withAgenda (.loadAndRun k instructions start :: s.agenda)) =
      s.beginRun k instructions start := step_withAgenda_cons hf _ _
  by_cases hunits : s.units = []
  · exact ⟨1, by simp, by rw [run_one, hstep, beginRun_noUnits hunits, loadAndRun_noUnits hunits]⟩
  · cases hu : s.units[k]? with
    | none => exact ⟨1, by simp, by rw [run_one, hstep, beginRun_missing hunits hu, loadAndRun_missing hunits hu]⟩
    | some u =>
      obtain ⟨n, hn, hrun⟩ :=
        run_remaining_eq_feedAll (instructions := instructions) (s := s.loadUnit k u start) hf rfl
      refine ⟨n + 1, Nat.succ_le_succ hn, ?_⟩
      rw [loadAndRun_some hu, ← hrun]
      exact run_next (hstep.trans (beginRun_some hu))

/-! ### The driver on a unit's ports, one cycle a step -/

/-- The words of a run on the ports, without its idle cycles (R96). -/
def wordsOf (slots : List PortSlot) : List Presented := slots.filterMap fun slot => slot.word.map Presented.word

theorem wordsOf_idle {slot : PortSlot} (hw : slot.word = none) (rest : List PortSlot) :
    wordsOf (slot :: rest) = wordsOf rest := by
  simp [wordsOf, hw]

theorem wordsOf_word {slot : PortSlot} {w : InstrWord} (hw : slot.word = some w) (rest : List PortSlot) :
    wordsOf (slot :: rest) = .word w :: wordsOf rest := by
  simp [wordsOf, hw]

/-- How a run on the ports goes on does not depend on what it had left before. -/
theorem awaitSlots_withFeed (s : State) (feed : Option Feed) (slots : List PortSlot) :
    (s.withFeed feed).awaitSlots slots = s.awaitSlots slots := by
  cases slots <;> rfl

theorem returnRun_of_feed_none {s : State} (h : s.feed = none) (r : Reply) : s.returnRun r = s.withReply r := by
  rw [State.returnRun, ← h]

/-- A word presented in a run, whatever the run has left and whatever was replied before. -/
theorem present_in_run {s t : State} {p : Presented} (h : s.present p = .next t) (r : Reply) (feed : Option Feed) :
    ((s.withReply r).withFeed feed).present p = .next (t.withFeed feed) := by
  rw [present_commutes (withFeed_commutes feed), present_withReply, h]
  rfl

section
variable {s : State} {u : UnitState} {slot : PortSlot} {w : InstrWord} (r : Reply) (rest : List PortSlot)

/-- The step of an idle cycle of a run on the ports. -/
theorem step_awaitSlots_idle (hu : s.units[s.target]? = some u) (hw : slot.word = none) :
    step ((s.withReply r).awaitSlots (slot :: rest)) =
      .next ((s.withReply (.unitPorts (u.outputs slot.ins))).awaitSlots rest) :=
  (portStep_idle (s := (s.withReply r).awaitSlots (slot :: rest)) (rest := rest) hu hw).trans
    (congrArg Host.Outcome.next (awaitSlots_withFeed (s.withReply _) _ rest))

/-- The step of an execute cycle of a run on the ports whose word raises an error. -/
theorem step_awaitSlots_error {e : ErrorKind} (hu : s.units[s.target]? = some u) (hw : slot.word = some w)
    (hraised : (wordOut w).raised w = some e) (hp : s.present (.word w) = .next (s.withReply (.error e))) :
    step ((s.withReply r).awaitSlots (slot :: rest)) = .next (s.returnRun (.error e)) :=
  portStep_error (s := (s.withReply r).awaitSlots (slot :: rest)) (rest := rest) hu hw hraised
    (present_in_run hp r (some (.ports (slot :: rest))))

/-- The step of an execute cycle of a run on the ports whose word succeeds. -/
theorem step_awaitSlots_ok {t : State} (hu : s.units[s.target]? = some u) (hw : slot.word = some w)
    (hraised : (wordOut w).raised w = none) (hp : s.present (.word w) = .next t) :
    step ((s.withReply r).awaitSlots (slot :: rest)) = .next (if t.targetRunning
      then (t.withReply (.unitPorts (u.outputs slot.ins))).awaitSlots rest else t.returnRun .ok) := by
  have hstep := portStep_ok (s := (s.withReply r).awaitSlots (slot :: rest)) (rest := rest) hu hw hraised
    (present_in_run hp r (some (.ports (slot :: rest))))
  rw [← awaitSlots_withFeed _ (some (.ports (slot :: rest)))]
  exact hstep

end

/-- The cycles of a run on the ports do what the contract's loop does with their words (R96), in at most one step for each
cycle; `r` is the reply of the cycle before. -/
theorem run_awaitSlots_eq_feedAll {slots : List PortSlot} {s : State} {u : UnitState} (hfeed : s.feed = none)
    (hu : s.units[s.target]? = some u) (r : Reply) :
    ∃ n, n ≤ slots.length ∧
      Host.Core.run Sys2Proof.core n ((s.withReply r).awaitSlots slots) = State.feedAll (wordsOf slots) s := by
  induction slots generalizing s u r with
  | nil => exact ⟨0, le_refl 0, congrArg Host.Outcome.next (returnRun_of_feed_none (s := s.withReply r) hfeed .ok)⟩
  | cons slot rest ih =>
    cases hw : slot.word with
    | none =>
      obtain ⟨n, hn, hrun⟩ := ih hfeed hu (.unitPorts (u.outputs slot.ins))
      refine ⟨n + 1, Nat.succ_le_succ hn, ?_⟩
      rw [wordsOf_idle hw, ← hrun]
      exact run_next (step_awaitSlots_idle r rest hu hw)
    | some w =>
      rw [wordsOf_word hw]
      obtain ⟨e, hraised, hp⟩ | ⟨v, hraised, hp⟩ := present_word_cases w hu
      · refine ⟨1, by simp, ?_⟩
        rw [run_one, step_awaitSlots_error r rest hu hw hraised hp, returnRun_of_feed_none hfeed,
          feedAll_stops hp (feedStops_of_error rfl)]
      · have hstep := step_awaitSlots_ok r rest hu hw hraised hp
        have hv : ((s.setUnit s.target v).withReply .ok).units[s.target]? = some v := setUnit_same s s.target v hu
        cases hr : ((s.setUnit s.target v).withReply .ok).targetRunning with
        | true =>
          obtain ⟨n, hn, hrun⟩ := ih (s := (s.setUnit s.target v).withReply .ok) hfeed hv
            (.unitPorts (u.outputs slot.ins))
          refine ⟨n + 1, Nat.succ_le_succ hn, ?_⟩
          rw [feedAll_continues hp (feedStops_of_ok rfl hr), ← hrun]
          exact run_next (by rw [hstep, if_pos hr])
        | false =>
          refine ⟨1, by simp, ?_⟩
          rw [run_one, hstep, feedAll_stops hp (feedStops_of_not_running hr), if_neg (by simp [hr]),
            returnRun_of_feed_none (s := (s.setUnit s.target v).withReply .ok) hfeed]
          rfl

section
variable {s : State} {k : Nat} {u : UnitState} {slots : List PortSlot} {start : Word} {obsIdx : BitVec 4}

theorem beginPorts_noUnits (h : s.units = []) :
    s.beginPorts k slots start obsIdx = .next (s.withReply (.error .noUnitsAvailable)) := if_pos h

theorem beginPorts_missing (hne : s.units ≠ []) (hk : s.units[k]? = none) :
    s.beginPorts k slots start obsIdx = .refused .noSuchUnit := by
  rw [State.beginPorts, if_neg hne, unitCycle_missing hk]
  rfl

/-- The load cycle of a run on the ports is the driver's loader start, with the cycle's outputs as the reply (R88). -/
theorem beginPorts_some (hu : s.units[k]? = some u) :
    ∃ r, s.beginPorts k slots start obsIdx = .next (((s.loadUnit k u start).withReply r).awaitSlots slots) := by
  refine ⟨.unitPorts (u.outputs { loadValid := true, loadAddr := start, obsIdx := obsIdx }), ?_⟩
  rw [State.beginPorts, if_neg (units_ne_nil hu), unitCycle_load hu rfl rfl rfl]
  rfl

end

/-- Settles O54: the load cycle starts the unit or ends the request, and the cycles of the run follow the loop. -/
theorem portDriverRefinesLoadAndRun : Obligations.PortDriverRefinesLoadAndRun := by
  intro s k slots start obsIdx hf
  have hstep : step (s.withAgenda (.drivePorts k slots start obsIdx :: s.agenda)) =
      s.beginPorts k slots start obsIdx := step_withAgenda_cons hf _ _
  by_cases hunits : s.units = []
  · exact ⟨1, by simp, by rw [run_one, hstep, beginPorts_noUnits hunits, loadAndRun_noUnits hunits]⟩
  · cases hu : s.units[k]? with
    | none => exact ⟨1, by simp, by rw [run_one, hstep, beginPorts_missing hunits hu, loadAndRun_missing hunits hu]⟩
    | some u =>
      obtain ⟨r, hbegin⟩ := beginPorts_some (slots := slots) (start := start) (obsIdx := obsIdx) hu
      obtain ⟨n, hn, hrun⟩ := run_awaitSlots_eq_feedAll (slots := slots) (s := s.loadUnit k u start) hf
        (setUnit_same s k _ hu) r
      refine ⟨n + 1, Nat.succ_le_succ hn, ?_⟩
      rw [loadAndRun_some hu]
      exact (run_next (hstep.trans hbegin)).trans hrun

/-! ### The driver by hand: a load cycle and execute cycles (R96) -/

/-- The first `n` instructions are what a run of the sequence from `s` to `t` feeds: it stops after them if they are not
the whole sequence, and after no shorter part of them. -/
structure FedPart (s t : State) (instructions : List Presented) (n : Nat) : Prop where
  le_length : n ≤ instructions.length
  stops : n < instructions.length → t.feedStops = true
  goes_on : ∀ m, m < n →
    ∃ r, State.feedAll (instructions.take m) s = .next r ∧ r.reply = .ok ∧ r.targetRunning = true
  outcome : State.feedAll (instructions.take n) s = .next t

/-- A run that answers feeds some first part of its sequence. -/
theorem exists_fedPart {instructions : List Presented} {s t : State} (hr : s.targetRunning = true)
    (h : State.feedAll instructions s = .next t) : ∃ n, FedPart s t instructions n := by
  have none_fed (p : Presented) (rest : List Presented) :
      ∃ r, State.feedAll ((p :: rest).take 0) s = .next r ∧ r.reply = .ok ∧ r.targetRunning = true :=
    ⟨_, rfl, rfl, hr⟩
  induction instructions generalizing s with
  | nil => exact ⟨0, le_refl 0, fun hlt => absurd hlt (lt_irrefl 0), fun m hm => absurd hm m.not_lt_zero, h⟩
  | cons p rest ih =>
    obtain ⟨q, hp, ⟨hstop, rfl⟩ | ⟨hstop, hrest⟩⟩ := feedAll_cons_cases h
    · refine ⟨1, by simp, fun _ => hstop, fun m hm => ?_, feedAll_stops hp hstop⟩
      obtain rfl : m = 0 := by omega
      exact none_fed p rest
    · have hq := (ok_of_feedStops hp hstop).2
      obtain ⟨n, hpart⟩ := ih hq hrest fun _ _ => ⟨_, rfl, rfl, hq⟩
      refine ⟨n + 1, Nat.succ_le_succ hpart.le_length, fun hlt => hpart.stops (Nat.lt_of_succ_lt_succ hlt),
        fun m hm => ?_, (feedAll_continues hp hstop).trans hpart.outcome⟩
      cases m with
      | zero => exact none_fed p rest
      | succ m =>
        obtain ⟨r, hfed, hok⟩ := hpart.goes_on m (Nat.lt_of_succ_lt_succ hm)
        exact ⟨r, (feedAll_continues hp hstop).trans hfed, hok⟩

/-- An execute cycle of the word on the ports of unit `k` (R82). -/
def executeCycle (k : Nat) (w : InstrWord) : HostOp := .unitCycle k { execValid := true, execInstr := w }

/-- An execute cycle on the ports of the target unit does what presenting its word does, but for the reply (R82). -/
theorem step_executeCycle {s t : State} {w : InstrWord} (hfeed : s.feed = none) (h : s.present (.word w) = .next t)
    (r : Reply) (rest : List HostOp) :
    ∃ o, step ((s.withReply r).withAgenda (executeCycle s.target w :: rest)) =
      .next ((t.withReply o).withAgenda rest) := by
  obtain ⟨u, hu, -⟩ := present_cases h
  have hpresent : ((s.withReply r).withAgenda rest).present (.word w) = .next (t.withAgenda rest) := by
    rw [present_commutes (withAgenda_commutes rest), present_withReply, h]
    rfl
  refine ⟨.unitPorts (u.outputs { execValid := true, execInstr := w }), ?_⟩
  rw [step_withAgenda_cons (s := s.withReply r) hfeed]
  exact (unitCycle_execute (s := (s.withReply r).withAgenda rest) hu rfl rfl rfl).trans
    (congrArg (mapNext _) hpresent)

/-- After an instruction that does not stop the run, the rest of the first part is fed. -/
theorem FedPart.tail {s t q : State} {p : Presented} {rest : List Presented} {n : Nat}
    (hpart : FedPart s t (p :: rest) (n + 1)) (hp : s.present p = .next q) (hstop : q.feedStops = false) :
    FedPart q t rest n where
  le_length := Nat.le_of_succ_le_succ hpart.le_length
  stops hlt := hpart.stops (Nat.succ_lt_succ hlt)
  goes_on m hm := by
    obtain ⟨r, hfed, hok⟩ := hpart.goes_on (m + 1) (Nat.succ_lt_succ hm)
    exact ⟨r, (feedAll_continues hp hstop).symm.trans hfed, hok⟩
  outcome := (feedAll_continues hp hstop).symm.trans hpart.outcome

/-- An instruction that stops the run is the last of the first part. -/
theorem FedPart.eq_zero_of_stops {s t q : State} {p : Presented} {rest : List Presented} {n : Nat}
    (hpart : FedPart s t (p :: rest) (n + 1)) (hp : s.present p = .next q) (hstop : q.feedStops = true) : n = 0 := by
  by_contra hn
  obtain ⟨r, hfed, hreply, hr⟩ := hpart.goes_on 1 (by omega)
  obtain rfl : q = r := Host.Outcome.next.inj ((feedAll_stops hp hstop).symm.trans hfed)
  simp [feedStops_of_ok hreply hr] at hstop

/-- The execute cycles of the words that a run feeds do what feeding them does, but for the reply (R96); `r` is the reply
of the cycle before. -/
theorem run_executeCycles {words : List InstrWord} {n : Nat} {s t : State} (hfeed : s.feed = none)
    (hpart : FedPart s t (words.map .word) n) (r : Reply) :
    ∃ o, Host.Core.run Sys2Proof.core n ((s.withReply r).withAgenda ((words.take n).map (executeCycle s.target))) =
      .next ((t.withReply o).withAgenda []) := by
  induction n generalizing words s r with
  | zero =>
    obtain rfl : s.withReply .ok = t := Host.Outcome.next.inj hpart.outcome
    exact ⟨r, rfl⟩
  | succ n ih =>
    cases words with
    | nil => exact absurd hpart.le_length (by simp)
    | cons w rest =>
      obtain ⟨q, hp, hcase⟩ := feedAll_cons_cases hpart.outcome
      obtain ⟨o, hstep⟩ := step_executeCycle hfeed hp r ((rest.take n).map (executeCycle s.target))
      obtain ⟨-, -, -, htarget, hqfeed, -⟩ := present_frame hp
      rw [List.take_succ_cons, List.map_cons, run_next hstep]
      obtain ⟨hstop, rfl⟩ | ⟨hstop, -⟩ := hcase
      · obtain rfl := hpart.eq_zero_of_stops hp hstop
        exact ⟨o, rfl⟩
      · exact htarget ▸ ih (hqfeed.trans hfeed) (hpart.tail hp hstop) o

/-- Settles O43: the cycles are those of the words the run feeds, and only the reply shows whether a word was fed or
presented on the ports. -/
theorem portsRealizeLoadAndRun : Obligations.PortsRealizeLoadAndRun := by
  intro s t k u words start hf h hu
  obtain ⟨hnone, rfl⟩ | ⟨u₀, hu₀, hrun⟩ := loadAndRun_cases h
  · simp [hnone] at hu
  · obtain ⟨n, hpart⟩ := exists_fedPart (loadUnit_targetRunning hu₀) hrun
    have htake (m : Nat) : s.loadAndRun k ((words.take m).map .word) start =
        State.feedAll ((words.map .word).take m) (s.loadUnit k u₀ start) := by
      rw [loadAndRun_some hu₀, List.map_take]
    obtain ⟨-, -, -, htarget, -⟩ := feedAll_frame hrun
    obtain ⟨o, hcycles⟩ := run_executeCycles (s := s.loadUnit k u₀ start) hf hpart
      (.unitPorts (u₀.outputs { loadValid := true, loadAddr := start }))
    refine ⟨n, (t.withReply o).withAgenda [], by simpa using hpart.le_length, fun hlt => ?stops, fun m hm => ?part,
      (htake n).trans hpart.outcome, ?cycles, rfl, rfl, rfl, rfl⟩
    case stops =>
      refine (feedStops_iff.mp (hpart.stops (by simpa using hlt))).imp_right fun hr => ?_
      rwa [targetRunning_eq (show t.units[t.target]? = some u from htarget ▸ hu)] at hr
    case part =>
      obtain ⟨r, hfed, hreply, hr⟩ := hpart.goes_on m hm
      obtain ⟨-, -, -, hrtarget, -⟩ := feedAll_frame hfed
      replace hrtarget : r.target = k := hrtarget
      obtain ⟨v, hv, hvr⟩ := targetRunning_iff.mp hr
      exact ⟨r, v, (htake m).trans hfed, hreply, hrtarget ▸ hv, hvr⟩
    case cycles =>
      refine (run_next ?_).trans hcycles
      rw [step_withAgenda_cons hf]
      exact unitCycle_load (s := s.withAgenda _) hu₀ rfl rfl rfl

end Sys2Proof.Machine
end

section
/-! PROOFS. What the assembler reads of the lines the model writes: a line's tokens, the digits of a number, and the
instruction of the record form and of the short form (R72, R73). -/

namespace Sys2Proof.Machine

/-! ### The digits of a number -/

/-- Every character of a number in decimal is a digit. -/
theorem isDigit_of_mem_decimal {n : Nat} {c : Char} (h : c ∈ decimal n) : c.isDigit = true :=
  Nat.isDigit_of_mem_toDigits (by decide) (by decide) h

theorem decimal_ne_nil (n : Nat) : decimal n ≠ [] := Nat.toDigits_ne_nil

/-- The value of a decimal digit. -/
theorem digitValue_of_isDigit {c : Char} (h : c.isDigit = true) : digitValue c = c.toNat - '0'.toNat := if_pos h

theorem digitValue_lt_of_isDigit {c : Char} (h : c.isDigit = true) : digitValue c < 10 := by
  have hc : c.toNat ≤ 57 := (Char.isDigit_iff_toNat.mp h).2
  have hzero : '0'.toNat = 48 := rfl
  rw [digitValue_of_isDigit h, hzero]
  omega

/-- On digits the model's reading of a number is the library's. -/
theorem foldl_digitValue_eq_ofDigitChars {digits : Line} (h : ∀ c ∈ digits, c.isDigit = true) (m : Nat) :
    digits.foldl (fun n c => 10 * n + digitValue c) m = Nat.ofDigitChars 10 digits m := by
  induction digits generalizing m with
  | nil => simp
  | cons c cs ih =>
    obtain ⟨hc, hcs⟩ := List.forall_mem_cons.mp h
    rw [List.foldl_cons, Nat.ofDigitChars_cons, ih hcs, digitValue_of_isDigit hc]

/-- A number in decimal reads back. -/
theorem numberIn_decimal (n : Nat) : numberIn 10 (decimal n) = some n := by
  have hall : (decimal n).all (fun c => digitValue c < 10) = true :=
    List.all_eq_true.mpr fun c hc => decide_eq_true (digitValue_lt_of_isDigit (isDigit_of_mem_decimal hc))
  rw [numberIn, if_pos ⟨decimal_ne_nil n, hall⟩,
    foldl_digitValue_eq_ofDigitChars (fun _ hc => isDigit_of_mem_decimal hc)]
  exact congrArg some (Nat.ofDigitChars_toDigits (by decide) (by decide))

/-- No number in decimal has the mark of a hexadecimal one. -/
theorem number_decimal (n : Nat) : number (decimal n) = some n := by
  unfold number
  split
  next digits hx =>
    have hmem : 'x' ∈ decimal n := hx ▸ by simp
    exact absurd (isDigit_of_mem_decimal hmem) (by decide)
  next => exact numberIn_decimal n

/-! ### The tokens of a line -/

/-- The characters make one name or number. -/
def IsName (cs : Line) : Prop := cs ≠ [] ∧ ∀ c ∈ cs, isNameChar c = true

theorem isName_of_all {cs : Line} (hne : cs ≠ []) (h : cs.all isNameChar = true) : IsName cs :=
  ⟨hne, List.all_eq_true.mp h⟩

theorem isName_decimal (n : Nat) : IsName (decimal n) := by
  refine ⟨decimal_ne_nil n, fun c hc => ?_⟩
  simp [isNameChar, Char.isAlphanum, isDigit_of_mem_decimal hc]

/-- `rN` is one name (R72). -/
theorem isName_register (n : Nat) : IsName ('r' :: decimal n) :=
  ⟨by simp, List.forall_mem_cons.mpr ⟨by decide, (isName_decimal n).2⟩⟩

/-- The characters of a name are read into the pending name. -/
theorem tokensFrom_append {cs : Line} (h : ∀ c ∈ cs, isNameChar c = true) (pending rest : Line) :
    tokensFrom pending (cs ++ rest) = tokensFrom (pending ++ cs) rest := by
  induction cs generalizing pending with
  | nil => simp
  | cons c cs ih =>
    obtain ⟨hc, hcs⟩ := List.forall_mem_cons.mp h
    rw [List.cons_append, tokensFrom, if_pos hc, ih hcs, List.append_assoc, List.singleton_append]

theorem endName_of_isName {cs : Line} (h : IsName cs) : endName cs = [.name cs] := by
  cases cs with
  | nil => exact absurd rfl h.1
  | cons c cs => rfl

section
variable {cs : Line} (h : IsName cs)
include h

theorem tokens_name : tokensFrom [] cs = [.name cs] := by
  have hread := tokensFrom_append h.2 [] []
  rw [List.append_nil, List.nil_append, tokensFrom, endName_of_isName h] at hread
  exact hread

/-- A name ends at a mark. -/
theorem tokens_name_mark {c : Char} (hname : isNameChar c = false) (hspace : c ≠ ' ') (rest : Line) :
    tokensFrom [] (cs ++ c :: rest) = .name cs :: .mark c :: tokensFrom [] rest := by
  rw [tokensFrom_append h.2, List.nil_append, tokensFrom, if_neg (by simp [hname]), if_neg hspace,
    endName_of_isName h, List.singleton_append]

/-- A name ends at a space, which is no token. -/
theorem tokens_name_space (rest : Line) : tokensFrom [] (cs ++ ' ' :: rest) = .name cs :: tokensFrom [] rest := by
  rw [tokensFrom_append h.2, List.nil_append, tokensFrom, if_neg (by decide), if_pos rfl, endName_of_isName h,
    List.singleton_append]

/-- The comma and the space between two operands. -/
theorem tokens_commaText (n rest : Line) :
    tokensFrom [] (commaText cs n ++ rest) = .name cs :: .mark ',' :: tokensFrom [] (n ++ rest) := by
  have hsplit : commaText cs n ++ rest = cs ++ ',' :: ' ' :: (n ++ rest) := by simp [commaText]
  have hspace : tokensFrom [] (' ' :: (n ++ rest)) = tokensFrom [] (n ++ rest) := rfl
  rw [hsplit, tokens_name_mark h (by decide) (by decide), hspace]

/-- An instruction's name before the braces of the record form. -/
theorem tokens_bracedText (inside : Line) :
    tokensFrom [] (cs ++ bracedText inside) =
      .name cs :: .mark openBrace :: tokensFrom [] (inside ++ [closeBrace]) :=
  tokens_name_mark h (by decide) (by decide) (inside ++ [closeBrace])

/-- The tokens of a record with one operand. -/
theorem tokens_record_one {m : Line} (hm : IsName m) :
    tokensFrom [] (cs ++ bracedText m) = [.name cs, .mark openBrace, .name m, .mark closeBrace] := by
  rw [tokens_bracedText h, tokens_name_mark hm (by decide) (by decide)]
  rfl

/-- The tokens of a record with two operands. -/
theorem tokens_record_two {m n : Line} (hm : IsName m) (hn : IsName n) :
    tokensFrom [] (cs ++ bracedText (commaText m n)) =
      [.name cs, .mark openBrace, .name m, .mark ',', .name n, .mark closeBrace] := by
  rw [tokens_bracedText h, tokens_commaText hm, tokens_name_mark hn (by decide) (by decide)]
  rfl

/-- The tokens of a short form with one operand. -/
theorem tokens_short_one {m : Line} (hm : IsName m) : tokensFrom [] (cs ++ ' ' :: m) = [.name cs, .name m] := by
  rw [tokens_name_space h, tokens_name hm]

/-- The tokens of a short form with two operands. -/
theorem tokens_short_two {m n : Line} (hm : IsName m) (hn : IsName n) :
    tokensFrom [] (cs ++ ' ' :: commaText m n) = [.name cs, .name m, .mark ',', .name n] := by
  have hcomma := tokens_commaText hm n []
  rw [List.append_nil, List.append_nil, tokens_name hn] at hcomma
  rw [tokens_name_space h, hcomma]

end

/-! ### The operands -/

/-- A number in decimal as an operand: it is not `u64::MAX`. -/
theorem operand_decimal (n : Nat) (rest : List Token) : operand (.name (decimal n) :: rest) = some (n, rest) := by
  unfold operand
  split
  next heq =>
    have hmem : 'u' ∈ decimal n := by simp_all
    exact absurd (isDigit_of_mem_decimal hmem) (by decide)
  next heq =>
    cases heq
    rw [number_decimal]
    rfl
  next hne => exact absurd rfl (hne _ _)

/-- A number in decimal as an operand of the record form, without its field's name. -/
theorem field_decimal (fieldName : Line) (n : Nat) {c : Char} (hc : c ≠ ':') (rest : List Token) :
    field fieldName (.name (decimal n) :: .mark c :: rest) = some (n, .mark c :: rest) := by
  unfold field
  split
  next heq =>
    cases heq
    exact absurd rfl hc
  next => exact operand_decimal n _

theorem register_decimal (n : Nat) (rest : List Token) :
    register (.name ('r' :: decimal n) :: rest) = some (n, rest) := by
  rw [register, numberIn_decimal]
  rfl

theorem valueOf_toNat (v : Word) : valueOf v.toNat = some v := by
  rw [valueOf, if_pos v.isLt, BitVec.ofNat_toNat, BitVec.setWidth_eq]

/-- Two operands with a comma between, where each is read. -/
theorem pair_eq_some {first second : List Token → Option (Nat × List Token)} {m n : Nat}
    {tokens rest rest' : List Token} (hfirst : first tokens = some (m, .mark ',' :: rest))
    (hsecond : second rest = some (n, rest')) : pair first second tokens = some ((m, n), rest') := by
  simp [pair, expect, hfirst, hsecond]

theorem braced_eq_some {α : Type} {inside : List Token → Option (α × List Token)} {x : α} {tokens rest : List Token}
    (h : inside tokens = some (x, .mark closeBrace :: rest)) :
    braced inside (.mark openBrace :: tokens) = some (x, rest) := by
  simp [braced, expect, h]

/-- The operands of a record with two of them. -/
theorem braced_pair_decimal (a b : Line) (m n : Nat) :
    braced (pair (field a) (field b))
      [.mark openBrace, .name (decimal m), .mark ',', .name (decimal n), .mark closeBrace] = some ((m, n), []) :=
  braced_eq_some (pair_eq_some (field_decimal a m (by decide) _) (field_decimal b n (by decide) []))

/-- The operand of a record with one. -/
theorem braced_decimal (a : Line) (n : Nat) :
    braced (field a) [.mark openBrace, .name (decimal n), .mark closeBrace] = some (n, []) :=
  braced_eq_some (field_decimal a n (by decide) [])

theorem pair_register_decimal (m n : Nat) :
    pair register operand [.name ('r' :: decimal m), .mark ',', .name (decimal n)] = some ((m, n), []) :=
  pair_eq_some (register_decimal m _) (operand_decimal n [])

theorem pair_registers_decimal (m n : Nat) :
    pair register register [.name ('r' :: decimal m), .mark ',', .name ('r' :: decimal n)] = some ((m, n), []) :=
  pair_eq_some (register_decimal m _) (register_decimal n [])

/-! ### What the assembler reads after each instruction name -/

section
variable (rest : List Token)

theorem parseTokens_loadImmediate :
    parseTokens (.name ['L', 'o', 'a', 'd', 'I', 'm', 'm', 'e', 'd', 'i', 'a', 't', 'e'] :: rest) =
      (braced (pair (field ['r', 'e', 'g']) (field ['v', 'a', 'l', 'u', 'e'])) rest).bind fun x =>
        (valueOf x.1.2).bind fun value => atEnd (.loadImmediate x.1.1 value) x.2 := rfl

theorem parseTokens_move : parseTokens (.name ['M', 'o', 'v', 'e'] :: rest) =
    (braced (pair (field ['d', 'e', 's', 't']) (field ['s', 'r', 'c'])) rest).bind fun x =>
      atEnd (.move x.1.1 x.1.2) x.2 := rfl

theorem parseTokens_add : parseTokens (.name ['A', 'd', 'd'] :: rest) =
    (braced (pair (field ['d', 'e', 's', 't']) (field ['s', 'r', 'c'])) rest).bind fun x =>
      atEnd (.add x.1.1 x.1.2) x.2 := rfl

theorem parseTokens_jump : parseTokens (.name ['J', 'u', 'm', 'p'] :: rest) =
    (braced (field ['a', 'd', 'd', 'r', 'e', 's', 's']) rest).bind fun x =>
      (valueOf x.1).bind fun address => atEnd (.jump address) x.2 := rfl

theorem parseTokens_li : parseTokens (.name ['l', 'i'] :: rest) =
    (pair register operand rest).bind fun x =>
      (valueOf x.1.2).bind fun value => atEnd (.loadImmediate x.1.1 value) x.2 := rfl

theorem parseTokens_mov : parseTokens (.name ['m', 'o', 'v'] :: rest) =
    (pair register register rest).bind fun x => atEnd (.move x.1.1 x.1.2) x.2 := rfl

theorem parseTokens_shortAdd : parseTokens (.name ['a', 'd', 'd'] :: rest) =
    (pair register register rest).bind fun x => atEnd (.add x.1.1 x.1.2) x.2 := rfl

theorem parseTokens_jmp : parseTokens (.name ['j', 'm', 'p'] :: rest) =
    (operand rest).bind fun x => (valueOf x.1).bind fun address => atEnd (.jump address) x.2 := rfl

end

/-! ### The lines -/

/-- The record form of an instruction reads back (R73). -/
theorem parseLine_recordForm (i : Instr) : parseLine (recordForm i) = some i := by
  cases i with
  | loadImmediate reg value =>
    rw [parseLine, recordForm,
      tokens_record_two (isName_of_all (by simp) rfl) (isName_decimal reg) (isName_decimal value.toNat)]
    simp [parseTokens_loadImmediate, braced_pair_decimal, valueOf_toNat, atEnd]
  | move dest src =>
    rw [parseLine, recordForm, tokens_record_two (isName_of_all (by simp) rfl) (isName_decimal dest) (isName_decimal src)]
    simp [parseTokens_move, braced_pair_decimal, atEnd]
  | add dest src =>
    rw [parseLine, recordForm, tokens_record_two (isName_of_all (by simp) rfl) (isName_decimal dest) (isName_decimal src)]
    simp [parseTokens_add, braced_pair_decimal, atEnd]
  | jump address =>
    rw [parseLine, recordForm, tokens_record_one (isName_of_all (by simp) rfl) (isName_decimal address.toNat)]
    simp [parseTokens_jump, braced_decimal, valueOf_toNat, atEnd]
  | halt => rfl

/-- The short form of an instruction reads back (R73). -/
theorem parseLine_shortForm (i : Instr) : parseLine (shortForm i) = some i := by
  cases i with
  | loadImmediate reg value =>
    have htokens := tokens_short_two (cs := ['l', 'i']) (isName_of_all (by simp) rfl) (isName_register reg)
      (isName_decimal value.toNat)
    rw [parseLine, show tokensFrom [] (shortForm (.loadImmediate reg value)) = _ from htokens]
    simp [parseTokens_li, pair_register_decimal, valueOf_toNat, atEnd]
  | move dest src =>
    have htokens := tokens_short_two (cs := ['m', 'o', 'v']) (isName_of_all (by simp) rfl) (isName_register dest)
      (isName_register src)
    rw [parseLine, show tokensFrom [] (shortForm (.move dest src)) = _ from htokens]
    simp [parseTokens_mov, pair_registers_decimal, atEnd]
  | add dest src =>
    have htokens := tokens_short_two (cs := ['a', 'd', 'd']) (isName_of_all (by simp) rfl) (isName_register dest)
      (isName_register src)
    rw [parseLine, show tokensFrom [] (shortForm (.add dest src)) = _ from htokens]
    simp [parseTokens_shortAdd, pair_registers_decimal, atEnd]
  | jump address =>
    have htokens := tokens_short_one (cs := ['j', 'm', 'p']) (isName_of_all (by simp) rfl)
      (isName_decimal address.toNat)
    rw [parseLine, show tokensFrom [] (shortForm (.jump address)) = _ from htokens]
    simp [parseTokens_jmp, operand_decimal, valueOf_toNat, atEnd]
  | halt => rfl

/-- A line that reads as a well-formed instruction assembles to its word (R73). -/
theorem assemble_of_parseLine {line : Line} {i : Instr} (h : parseLine line = some i) (hw : i.wellFormed = true) :
    assemble line = some (encode i) := by
  rw [assemble, h, Option.bind_some, if_pos hw]

/-- Settles O20: both forms of an instruction read back as the instruction. -/
theorem assemblyLinesAssemble : Obligations.AssemblyLinesAssemble :=
  fun i hw => ⟨assemble_of_parseLine (parseLine_recordForm i) hw, assemble_of_parseLine (parseLine_shortForm i) hw⟩

end Sys2Proof.Machine
end
